-- ==== Sys2Proof/Word.lean ====
section
/-! DEFINITION. The word types of the block: widths only. -/

namespace Sys2Proof

/-- A 32-bit word: an instruction word (R80) or the contents of a register (R6, R20). -/
abbrev Word := BitVec 32

/-- The 8-bit operation selector, bits 31..24 of an instruction word (R11, R80). -/
abbrev Opcode := BitVec 8

/-- The 24-bit unsigned payload, bits 23..0 of an instruction word (R11, R80, R82). -/
abbrev Operand := BitVec 24

/-- A byte of a serialised program, outside the block (R53). -/
abbrev Byte := BitVec 8

end Sys2Proof
end

