-- ==== Sys2Proof/Config.lean ====
section
/-! DEFINITION. The parameters that the spec leaves OPEN (R6). -/

namespace Sys2Proof

/-- The two orders in which a loader outside the block may take the four bytes of a word (R53, D16).
`LOADER_BYTE_ORDER` is OPEN, so every function that needs it takes it as an argument. -/
inductive ByteOrder where
  /-- The first byte of a word is its bits 7..0. -/
  | little
  /-- The first byte of a word is its bits 31..24. -/
  | big
  deriving DecidableEq, Repr

namespace Config

/-- `NAME_MAX` (R6, R55, D11): the bound on the length of a label name. The spec leaves it OPEN, so
it is a free value: nothing about it can be computed or proved. See assumption 8. -/
opaque nameMax : Nat

end Config

end Sys2Proof
end

