-- ==== Sys2Proof/Syntax.lean ====
section
/-! DEFINITION. The instructions, one constructor per row of spec/opcode_table.json (R84). -/

namespace Sys2Proof

/-- An instruction of the block, with the operand each row carries (R84). -/
inductive Instr where
  /-- LOAD, opcode 0x01, with an immediate (R130). -/
  | load (v : Operand)
  /-- ADD, opcode 0x02, with an immediate (R133). -/
  | add (v : Operand)
  /-- SUB, opcode 0x03, with an immediate (R136). -/
  | sub (v : Operand)
  /-- JUMP, opcode 0x04, with a position in the Label Table (R150). -/
  | jump (i : Operand)
  /-- PRINT, opcode 0x05, with a register selector (R170). -/
  | print (r : Operand)
  /-- LABEL-MARKER, opcode 0x06, with a stored label address (R190, R192). -/
  | labelMarker (a : Operand)
  /-- UNKNOWN, the default row: any opcode that is not 0x01 to 0x06 (R86, R194). -/
  | unknown (opcode : Opcode) (operand : Operand)
  deriving DecidableEq, Repr

/-- The operation selector an instruction stands under in the opcode map (R84). -/
def Instr.opcode : Instr → Opcode
  | .load _ => 0x01#8
  | .add _ => 0x02#8
  | .sub _ => 0x03#8
  | .jump _ => 0x04#8
  | .print _ => 0x05#8
  | .labelMarker _ => 0x06#8
  | .unknown op _ => op

/-- The 24-bit payload an instruction carries (R80). -/
def Instr.operand : Instr → Operand
  | .load v => v
  | .add v => v
  | .sub v => v
  | .jump i => i
  | .print r => r
  | .labelMarker a => a
  | .unknown _ v => v

end Sys2Proof
end

