-- ==== Sys2Proof/WellFormed.lean ====
section
/-! DEFINITION. Which instructions are well-formed. -/

namespace Sys2Proof

/-- The unknown space of R86: the 250 opcode values 0x00 and 0x07 to 0xFF. -/
def Opcode.isUnknown (op : Opcode) : Bool :=
  op.toNat == 0 || 7 ≤ op.toNat

/-- An instruction is well-formed when it is what its word decodes to: an UNKNOWN carries an opcode of
the unknown space (R86); every operand value is legal for every opcode (R87). See assumption 11. -/
def Instr.wf : Instr → Bool
  | .load _ => true
  | .add _ => true
  | .sub _ => true
  | .jump _ => true
  | .print _ => true
  | .labelMarker _ => true
  | .unknown op _ => Opcode.isUnknown op

end Sys2Proof
end

