-- ==== Sys2Proof/Decode.lean ====
section
/-! DEFINITION. Decoding an instruction word, and the encoder after it. -/

namespace Sys2Proof

/-- Bits 31..24 of a word (R81). -/
def opcodeField (w : Word) : Opcode := w.extractLsb' 24 8

/-- Bits 23..0 of a word (R81). -/
def operandField (w : Word) : Operand := w.extractLsb' 0 24

/-- The pure, total decode of R81: the opcode and operand fields of a word. -/
def decodeFields (w : Word) : Opcode × Operand := (opcodeField w, operandField w)

/-- The instruction an opcode and operand stand for: the opcode map of R84, a closed match with
the unknown class as its default arm. -/
def instrOf (op : Opcode) (v : Operand) : Instr :=
  match op with
  | 0x01#8 => .load v
  | 0x02#8 => .add v
  | 0x03#8 => .sub v
  | 0x04#8 => .jump v
  | 0x05#8 => .print v
  | 0x06#8 => .labelMarker v
  | op => .unknown op v

/-- The instruction a word stands for (R81, R84). Every 32-bit word decodes. -/
def decode (w : Word) : Instr := instrOf (opcodeField w) (operandField w)

/-- `opcode[7:0] ++ operand[23:0]` (R85). -/
def encodeFields (op : Opcode) (v : Operand) : Word := op ++ v

/-- The word of an instruction (R84, R85). -/
def encode (i : Instr) : Word := encodeFields i.opcode i.operand

/-- Why a loader outside the block refuses a byte stream. -/
inductive LoadError where
  /-- The stream ends inside a word: every instruction is exactly one 32-bit word (R88). Raised by
  `wordsOfBytes`; safe, since nothing is loaded. -/
  | truncatedWord
  deriving DecidableEq, Repr

/-- Four bytes of a serialised program, in stream order, as a word (R53, D16). -/
def wordOfBytes (order : ByteOrder) (b0 b1 b2 b3 : Byte) : Word :=
  match order with
  | .little => b3 ++ b2 ++ b1 ++ b0
  | .big => b0 ++ b1 ++ b2 ++ b3

/-- The words of a serialised program. This is a loader outside the block: inside it the program
buffer holds word values and no byte order arises (R53). See assumption 9. -/
def wordsOfBytes (order : ByteOrder) : List Byte → Except LoadError (List Word)
  | [] => .ok []
  | b0 :: b1 :: b2 :: b3 :: rest =>
    match wordsOfBytes order rest with
    | .ok ws => .ok (wordOfBytes order b0 b1 b2 b3 :: ws)
    | .error e => .error e
  | _ => .error .truncatedWord

/-- The instructions of a serialised program: total on any bytes, refusing a stream that ends
inside a word by name. -/
def decodeBytes (order : ByteOrder) (bytes : List Byte) : Except LoadError (List Instr) :=
  match wordsOfBytes order bytes with
  | .ok ws => .ok (ws.map decode)
  | .error e => .error e

/-- The word whose low `nbits` bits are those of `w` and whose other bits are 0. -/
def tableWord (nbits w : Nat) : Word := BitVec.ofNat 32 (w % 2 ^ nbits)

/-- The instruction that decoding gives for an instruction whose bits are `w`, numbered as
spec/opcode_table.json numbers them; every instruction is one 32-bit word (R88). -/
def decodeTableWord (nbits w : Nat) : Option Instr :=
  if nbits ≤ 32 then some (decode (tableWord nbits w)) else none

end Sys2Proof
end

