-- ==== Sys2Proof/Machine/State.lean ====
section
/-! DEFINITION. The state of a run, the reasons a step or a port stops, and the state after reset. -/

namespace Sys2Proof.Machine

/-- The four independent error indicators; 0 means no error recorded (R32). -/
structure ErrIndicators where
  cpu : Word
  ram : Word
  gpu : Word
  disk : Word
  deriving DecidableEq, Repr

/-- The Register State: exactly the fields of R20. -/
structure Regs where
  /-- The accumulator, two's complement (R22). -/
  acc : Word
  /-- `gpr[0]`, whose name is `ax` (R23). -/
  gpr0 : Word
  /-- `gpr[1]` (R23). -/
  gpr1 : Word
  /-- `gpr[2]` (R23). -/
  gpr2 : Word
  /-- The program counter, a 32-bit pattern (R26). It does not choose the next word (R27). -/
  pc : Word
  /-- The flags word, opaque (R29). -/
  flags : Word
  /-- The instruction pointer, a field distinct from `pc` (R31). -/
  ip : Word
  /-- The segment register (R31). -/
  seg : Word
  /-- The error indicators (R32). -/
  err : ErrIndicators
  deriving DecidableEq, Repr

/-- The text of a label name (R55), as its characters. See assumption 8. -/
abbrev LabelName := List Char

/-- A Label Entry `(name, addr)` (R55). -/
structure LabelEntry where
  name : LabelName
  addr : Word
  deriving DecidableEq, Repr

/-- The Label Table: the entries in insertion order (R55, R56). -/
abbrev LabelTable := List LabelEntry

/-- The program buffer: `N` words indexed by position (R50). -/
abbrev ProgramBuffer := List Word

/-- Which register a printed value comes from (R103). -/
inductive Source where
  /-- The accumulator. -/
  | acc
  /-- `gpr[0]`, named `ax`. -/
  | ax
  deriving DecidableEq, Repr

/-- The three diagnostics (R210). -/
inductive DiagKind where
  /-- An opcode outside 0x01 to 0x06 (R194). -/
  | unknownInstruction
  /-- A JUMP operand that is no position of the Label Table (R150). -/
  | invalidLabelOperand
  /-- A PRINT operand that selects no register (R170). -/
  | unknownRegister
  deriving DecidableEq, Repr

/-- A record of the trace: exactly three kinds (R103). -/
inductive TraceRecord where
  /-- `Value(src, v)`, with `v` the signed reading of the register. -/
  | value (src : Source) (v : Int)
  /-- `Label(name)`. -/
  | label (name : LabelName)
  /-- `Diag(kind)`. -/
  | diag (kind : DiagKind)
  deriving DecidableEq, Repr

/-- A call of `set_error_flags` that the host makes during the run (R101, R220): its four codes, and
the sequencer position at which it comes, between the step before `pos` and the step at `pos`; at
the position `N` it comes after the last step (R111). See assumption 6. -/
structure ErrCall where
  pos : Nat
  cpu : Word
  ram : Word
  gpu : Word
  disk : Word
  deriving DecidableEq, Repr

/-- The state of one run: the tuple `(S, T, P, k, tr)` of R102, and the host's calls still to come. -/
structure State where
  /-- `S`, the Register State (R20). -/
  regs : Regs
  /-- `T`, the Label Table, an input of the run (R55, R61). -/
  labels : LabelTable
  /-- `P`, the program buffer, an input of the run (R50). -/
  program : ProgramBuffer
  /-- `k`, the sequencer position, not architectural (R33). -/
  k : Nat
  /-- `tr`, the trace emitted so far, oldest record first (R103). -/
  trace : List TraceRecord
  /-- The model's own field: the `set_error_flags` calls the host is still to make, in order. It
  holds the set and timing of the calls, which R115 makes an input of the run. -/
  errCalls : List ErrCall
  deriving DecidableEq, Repr

/-- Why the machine stops. No instruction raises a fault (R107, R212). -/
inductive Fault where
  /-- Raised by a step of the sequencer when the program buffer has no word at the position: at
  `k = N` the run is over and no step exists (R108, R112, R235). Safe: the machine stops where the
  block takes no step. See assumption 4. -/
  | runEnded
  deriving DecidableEq, Repr

/-- Why an instruction has no meaning, or a host port turns a call away. -/
inductive Refusal where
  /-- An instruction whose meaning is not modelled yet. Raised by no arm; safe. -/
  | notModelled (mnemonic : String)
  /-- Raised by the `label_write` port: the name is longer than `NAME_MAX` (R60, D11). Safe. -/
  | labelNameTooLong
  /-- Raised by the `label_write` port during a run (R61, R66, D18). Safe. -/
  | labelWriteDuringRun
  /-- Raised by the `program` port during a run (R101, R252). Safe. -/
  | programLoadDuringRun
  /-- Raised by the `init` port during a run (R252, D19). Safe. -/
  | initDuringRun
  deriving DecidableEq, Repr

/-- The error indicators after `init` (R250). -/
def ErrIndicators.zero : ErrIndicators where
  cpu := 0
  ram := 0
  gpu := 0
  disk := 0

/-- The Register State after `init`: every field is 0 (R250). -/
def Regs.zero : Regs where
  acc := 0
  gpr0 := 0
  gpr1 := 0
  gpr2 := 0
  pc := 0
  flags := 0
  ip := 0
  seg := 0
  err := .zero

/-- The state right after reset, with nothing placed: the Register State after `init` (R250), `k = 0`
and an empty trace (R251). The inputs of a run are not there yet: no label, no program word, no
scheduled call. See assumptions 5 and 6. -/
def State.reset : State where
  regs := .zero
  labels := []
  program := []
  k := 0
  trace := []
  errCalls := []

end Sys2Proof.Machine
end

