-- ==== Sys2Proof/Machine/Operands.lean ====
section
/-! DEFINITION. How an instruction reads its operand (R83), and the width primitives of R8. -/

namespace Sys2Proof.Machine

/-- `zext_32` of an operand: never sign-extended, never scaled (R8, R82). -/
def zext32 (v : Operand) : Word := v.setWidth 32

/-- `trunc_32` of a number: its low 32 bits (R8). -/
def trunc32 (n : Nat) : Word := BitVec.ofNat 32 n

/-- `signed_32`: the two's-complement reading of a pattern (R8). -/
def signed32 (w : Word) : Int := w.toInt

/-- The operand of LOAD, ADD and SUB: an immediate value (R83). -/
def immediate (v : Operand) : Word := zext32 v

/-- The operand of JUMP: a position in the Label Table (R83). -/
def tablePosition (v : Operand) : Nat := v.toNat

/-- The operand of LABEL-MARKER: a stored label address to search for (R83). -/
def labelAddress (v : Operand) : Word := zext32 v

/-- What the operand of PRINT selects (R83, R170). -/
inductive PrintSelection where
  | acc
  | gpr0
  | unknown
  deriving DecidableEq, Repr

/-- The operand of PRINT: 0 is `acc`, 1 is `gpr[0]`, any other value is unknown (R83, R170). -/
def registerSelector (v : Operand) : PrintSelection :=
  if v.toNat = 0 then .acc else if v.toNat = 1 then .gpr0 else .unknown

end Sys2Proof.Machine
end

