-- ==== Sys2Proof/Machine/Flags.lean ====
section
/-! DEFINITION. What an arithmetic result does to the flags word (R29, R30). -/

namespace Sys2Proof.Machine

/-- The flags word after LOAD, ADD or SUB has produced `result`: unchanged. The block has no condition
codes, and the carry, overflow, zero and sign of a result are recorded nowhere (R29, R30). -/
def flagsAfterResult (flags : Word) (_result : Word) : Word := flags

end Sys2Proof.Machine
end

