-- ==== Sys2Proof/Machine/Ops.lean ====
section
/-! DEFINITION. The named operations over the registers, the program buffer, the Label Table and the
trace. The block has no exception entry or return (R212, R215, R216); `diag` takes their place (R9). -/

namespace Sys2Proof.Machine

/-- `ProgWord(k)` (R51): the word at position `k`, if `k < N`. -/
def progWord (P : ProgramBuffer) (k : Nat) : Option Word := P[k]?

/-- `LabelCount()` (R55). -/
def labelCount (T : LabelTable) : Nat := T.length

/-- `LabelAt(i)` (R56), the read port by insertion position: the entry there, if `i < L`. -/
def labelAt (T : LabelTable) (i : Nat) : Option LabelEntry := T[i]?

/-- `LabelFindAddr(a)` (R57), the read port by stored address: the first entry whose address is `a`. -/
def labelFindAddr (T : LabelTable) (a : Word) : Option LabelEntry := T.find? fun e => e.addr == a

/-- What the Executor answers (R106): the next Register State and the records to emit. -/
abbrev ExecResult := Regs × List TraceRecord

/-- `acc <- v`, the one register write of LOAD, ADD and SUB (R22, R29). -/
def writeAcc (S : Regs) (v : Word) : Regs :=
  { S with acc := v, flags := flagsAfterResult S.flags v }

/-- `pc <- target` (R9, R26). It does not move the fetch position (R110). -/
def writePc (S : Regs) (target : Word) : Regs := { S with pc := target }

/-- `diag(kind)` (R9, R210): the record is the only effect, and no register field is written (R211). -/
def diag (S : Regs) (kind : DiagKind) : ExecResult := (S, [.diag kind])

/-- `emit(r)`: append a record at the end of the trace (R103). It never blocks or fails (R105). -/
def emit (s : State) (r : TraceRecord) : State := { s with trace := s.trace ++ [r] }

/-- `(S, rs) <- …; for r in rs: emit r` (R108). -/
def commit (s : State) (res : ExecResult) : State := res.2.foldl emit { s with regs := res.1 }

/-- `k <- k + 1` (R108). -/
def advance (s : State) : State := { s with k := s.k + 1 }

/-- The program buffer with `w` at position `k`; a buffer that ends before `k` is filled with zero
words up to it. It serves `State.withFetchWord` alone: no instruction writes the buffer (R54). -/
def putWord : ProgramBuffer → Nat → Word → ProgramBuffer
  | [], 0, w => [w]
  | [], k + 1, w => 0 :: putWord [] k w
  | _ :: P, 0, w => w :: P
  | p :: P, k + 1, w => p :: putWord P k w

end Sys2Proof.Machine
end

