-- ==== Sys2Proof/Machine/Accumulator.lean ====
section
/-! DEFINITION. LOAD, ADD and SUB (spec/41_accumulator.md). -/

namespace Sys2Proof.Machine

/-- The Executor's LOAD (R130): `acc <- zext_32(v)`. -/
def loadArm (v : Operand) (S : Regs) : ExecResult := (writeAcc S (immediate v), [])

/-- The Executor's ADD (R133): `acc <- trunc_32(acc + zext_32(v))`, modulo 2^32 by decision D2. See
assumption 2. -/
def addArm (v : Operand) (S : Regs) : ExecResult := (writeAcc S (S.acc + immediate v), [])

/-- The Executor's SUB (R136): `acc <- trunc_32(acc - zext_32(v))`, modulo 2^32 by decision D2. See
assumption 2. -/
def subArm (v : Operand) (S : Regs) : ExecResult := (writeAcc S (S.acc - immediate v), [])

/-- LOAD (R130). -/
def execLoad (v : Operand) (s : State) : Host.Outcome State Fault Refusal :=
  .next (commit s (loadArm v s.regs))

/-- ADD (R133). -/
def execAdd (v : Operand) (s : State) : Host.Outcome State Fault Refusal :=
  .next (commit s (addArm v s.regs))

/-- SUB (R136). -/
def execSub (v : Operand) (s : State) : Host.Outcome State Fault Refusal :=
  .next (commit s (subArm v s.regs))

end Sys2Proof.Machine
end

