-- ==== Sys2Proof/Machine/Jump.lean ====
section
/-! DEFINITION. JUMP (spec/42_jump.md). -/

namespace Sys2Proof.Machine

/-- The Executor's JUMP (R150): a position of the Label Table gives its stored address to `pc`, whole;
an operand that is no position (`i >= L`) gives one diagnostic and leaves `pc` unchanged. -/
def jumpArm (i : Operand) (T : LabelTable) (S : Regs) : ExecResult :=
  match labelAt T (tablePosition i) with
  | some e => (writePc S e.addr, [])
  | none => diag S .invalidLabelOperand

/-- JUMP (R150). The sequencer position is not touched (R153). -/
def execJump (i : Operand) (s : State) : Host.Outcome State Fault Refusal :=
  .next (commit s (jumpArm i s.labels s.regs))

end Sys2Proof.Machine
end

