-- ==== Sys2Proof/Machine/Marker.lean ====
section
/-! DEFINITION. LABEL-MARKER and the unknown opcodes (spec/44_marker_unknown.md). -/

namespace Sys2Proof.Machine

/-- The marker pass (R190): the name of the first entry whose stored address is the operand, or no
output. No register field is written. -/
def markerPass (a : Operand) (s : State) : State :=
  match labelFindAddr s.labels (labelAddress a) with
  | some e => emit s (.label e.name)
  | none => s

/-- The Executor's own 0x06 arm (R192): no field written and, by decision D21, no record. The sequencer
never reaches it (R89). See assumptions 12 and 13. -/
def labelMarkerArm (_a : Operand) (S : Regs) : ExecResult := (S, [])

/-- The Executor's default arm (R194): one diagnostic, no state change, the operand ignored. -/
def unknownArm (_opcode : Opcode) (_operand : Operand) (S : Regs) : ExecResult :=
  diag S .unknownInstruction

/-- LABEL-MARKER in the program buffer: the sequencer gives it to the marker pass (R89, R190). -/
def execLabelMarker (a : Operand) (s : State) : Host.Outcome State Fault Refusal :=
  .next (markerPass a s)

/-- An unknown opcode (R194). -/
def execUnknown (opcode : Opcode) (operand : Operand) (s : State) :
    Host.Outcome State Fault Refusal :=
  .next (commit s (unknownArm opcode operand s.regs))

end Sys2Proof.Machine
end

