-- ==== Sys2Proof/Machine/Print.lean ====
section
/-! DEFINITION. PRINT (spec/43_print.md). -/

namespace Sys2Proof.Machine

/-- The Executor's PRINT (R170): one record and no register write. The value of `gpr[0]` is read as
signed by decision D25. See assumption 16. -/
def printArm (r : Operand) (S : Regs) : ExecResult :=
  match registerSelector r with
  | .acc => (S, [.value .acc (signed32 S.acc)])
  | .gpr0 => (S, [.value .ax (signed32 S.gpr0)])
  | .unknown => diag S .unknownRegister

/-- PRINT (R170). -/
def execPrint (r : Operand) (s : State) : Host.Outcome State Fault Refusal :=
  .next (commit s (printArm r s.regs))

end Sys2Proof.Machine
end

