-- ==== Sys2Proof/Machine/Executor.lean ====
section
/-! DEFINITION. The Executor as a unit of its own, and the sequencer's split before it (R106, R108). -/

namespace Sys2Proof.Machine

/-- The Executor (R106): a total function from `(S, opcode, operand, T)` to `(S', records)`, one arm per
opcode and a default arm. It reads the Label Table only for JUMP (R109). -/
def execute (S : Regs) (opcode : Opcode) (operand : Operand) (T : LabelTable) : ExecResult :=
  match opcode with
  | 0x01#8 => loadArm operand S
  | 0x02#8 => addArm operand S
  | 0x03#8 => subArm operand S
  | 0x04#8 => jumpArm operand T S
  | 0x05#8 => printArm operand S
  | 0x06#8 => labelMarkerArm operand S
  | op => unknownArm op operand S

/-- What one step of R108 does with a decoded pair, before `k <- k + 1`: opcode 0x06 goes to the marker
pass, every other opcode to the Executor, whose records are emitted. -/
def process (opcode : Opcode) (operand : Operand) (s : State) : State :=
  if opcode = 0x06#8 then markerPass operand s
  else commit s (execute s.regs opcode operand s.labels)

end Sys2Proof.Machine
end

