-- ==== Sys2Proof/Machine/Dispatch.lean ====
section
/-! DEFINITION. The meaning of each instruction as the sequencer runs it, one arm per constructor. -/

namespace Sys2Proof.Machine

def exec (i : Instr) (s : State) : Host.Outcome State Fault Refusal :=
  match i with
  | .load v => Sys2Proof.Machine.execLoad v s
  | .add v => Sys2Proof.Machine.execAdd v s
  | .sub v => Sys2Proof.Machine.execSub v s
  | .jump v => Sys2Proof.Machine.execJump v s
  | .print r => Sys2Proof.Machine.execPrint r s
  | .labelMarker a => Sys2Proof.Machine.execLabelMarker a s
  | .unknown opcode operand => Sys2Proof.Machine.execUnknown opcode operand s

end Sys2Proof.Machine
end

