-- ==== Sys2Proof/Machine/Ports.lean ====
section
/-! DEFINITION. The host's ports (R101): `program`, `label_write`, `init`, `err_update` and `state`. The
`trace` port is the field `trace` itself. A run is under way once a step has been taken (`k ≠ 0`). See
assumption 7. -/

namespace Sys2Proof.Machine

/-- `set_error_flags(c, r, g, d)` (R220): the first non-zero code, in the order CPU, RAM, GPU, disk, is
recorded; every other indicator keeps its value (R221). -/
def setErrorFlags (c r g d : Word) (e : ErrIndicators) : ErrIndicators :=
  if c ≠ 0 then { e with cpu := c }
  else if r ≠ 0 then { e with ram := r }
  else if g ≠ 0 then { e with gpu := g }
  else if d ≠ 0 then { e with disk := d }
  else e

/-- The `err_update` port (R101, R220): only the error indicators change (R111). -/
def errUpdate (c r g d : Word) (s : State) : State :=
  { s with regs := { s.regs with err := setErrorFlags c r g d s.regs.err } }

/-- Whether a scheduled call comes now: the sequencer has reached its position (R111). -/
def ErrCall.due (k : Nat) (c : ErrCall) : Bool := c.pos ≤ k

/-- The host makes the call `c`, after which the calls `rest` are still to come. -/
def applyErrCall (c : ErrCall) (rest : List ErrCall) (s : State) : State :=
  errUpdate c.cpu c.ram c.gpu c.disk { s with errCalls := rest }

/-- The scheduled calls that come after the step at `k`. -/
def callsAfter (k : Nat) (calls : List ErrCall) : List ErrCall := calls.dropWhile (ErrCall.due k)

/-- `add_label(name, address)`, the `label_write` port (R60): the entry goes to the end of the table. A
name longer than `NAME_MAX` is refused (D11), and so is a call during a run (D18). -/
def addLabel (name : LabelName) (address : Nat) (s : State) : Host.Outcome State Fault Refusal :=
  if s.k ≠ 0 then .refused .labelWriteDuringRun
  else if name.length ≤ Config.nameMax then
    .next { s with labels := s.labels ++ [{ name := name, addr := trunc32 address }] }
  else .refused .labelNameTooLong

/-- The `program` port (R50, R101): the whole buffer, supplied before the run. -/
def loadProgram (P : ProgramBuffer) (s : State) : Host.Outcome State Fault Refusal :=
  if s.k ≠ 0 then .refused .programLoadDuringRun else .next { s with program := P }

/-- `init()`, the `init` port (R250): every register field is 0; the Label Table and the program buffer
are not touched (R252). It is not admitted during a run (D19). -/
def initPort (s : State) : Host.Outcome State Fault Refusal :=
  if s.k ≠ 0 then .refused .initDuringRun else .next { s with regs := .zero }

/-- The `state` port (R101, R114): the whole Register State, once the run has ended at `k = N`. -/
def readState (s : State) : Option Regs :=
  if s.k = s.program.length then some s.regs else none

end Sys2Proof.Machine
end

