-- ==== Sys2Proof/Machine/Step.lean ====
section
/-! DEFINITION. One step of the sequencer, one step of the machine, and placing a word for the fetch. -/

namespace Sys2Proof.Machine

/-- One step of the sequencer (R108): fetch the word at `k`, decode it, run it, `k <- k + 1`. The fetch
position is `k`, never `pc` (R110). At `k = N` no step exists (R112). -/
def seqStep (s : State) : Host.Outcome State Fault Refusal :=
  match progWord s.program s.k with
  | none => .fault .runEnded
  | some w =>
    match exec (decode w) s with
    | .next t => .next (advance t)
    | .fault r => .fault r
    | .refused r => .refused r

/-- One step of the machine: a `set_error_flags` call of the host that comes now, or else a step of the
sequencer. A call comes between two steps, before the first or after the last (R111). -/
def step (s : State) : Host.Outcome State Fault Refusal :=
  match s.errCalls with
  | c :: rest => if c.due s.k then .next (applyErrCall c rest s) else seqStep s
  | [] => seqStep s

/-- `s` with the instruction whose bits are `w` stored at the sequencer position, and no host call
before it, so that the next step runs exactly that instruction. -/
def State.withFetchWord (s : State) (nbits w : Nat) : State :=
  { s with
    program := putWord s.program s.k (tableWord nbits w)
    errCalls := callsAfter s.k s.errCalls }

end Sys2Proof.Machine
end

