-- ==== Sys2Proof/Machine/Assembler.lean ====
section
/-! DEFINITION. The assembler lines of R90, one instruction a line: what each encodes to, and what is
refused. The assembler stands outside the block; no step uses it. -/

namespace Sys2Proof.Machine

/-- Why the assembler refuses a line (R85, R90). -/
inductive AsmError where
  /-- The line has none of the forms of R90. Safe: no word is produced. -/
  | badLine
  /-- A number is not `decimal` or `0x` and hex digits. Safe: no word is produced. -/
  | badNumber
  /-- An immediate is above 0xFFFFFF, or a raw word above 0xFFFFFFFF. Safe: no word is produced. -/
  | tooWide
  deriving DecidableEq, Repr

/-- The lines of R90, with their numbers not yet checked against the widths. -/
inductive AsmLine where
  | load (imm : Nat)
  | add (imm : Nat)
  | sub (imm : Nat)
  | jump (imm : Nat)
  /-- `acc` stands for 0 and `reg1` for 1 (R91). -/
  | print (imm : Nat)
  | label (imm : Nat)
  | word (w : Nat)
  deriving DecidableEq, Repr

/-- `op ++ imm`, refusing an immediate outside 0..0xFFFFFF (R85, R90). -/
def asmImmediate (op : Opcode) (imm : Nat) : Except AsmError Word :=
  if imm ≤ 0xFFFFFF then .ok (encodeFields op (BitVec.ofNat 24 imm)) else .error .tooWide

/-- The word of a line (R84, R90). -/
def assembleLine : AsmLine → Except AsmError Word
  | .load imm => asmImmediate 0x01#8 imm
  | .add imm => asmImmediate 0x02#8 imm
  | .sub imm => asmImmediate 0x03#8 imm
  | .jump imm => asmImmediate 0x04#8 imm
  | .print imm => asmImmediate 0x05#8 imm
  | .label imm => asmImmediate 0x06#8 imm
  | .word w => if w ≤ 0xFFFFFFFF then .ok (BitVec.ofNat 32 w) else .error .tooWide

/-- The value of a decimal digit. -/
def decimalDigit (c : Char) : Option Nat :=
  if '0'.toNat ≤ c.toNat ∧ c.toNat ≤ '9'.toNat then some (c.toNat - '0'.toNat) else none

/-- The value of a hexadecimal digit, in either case. See assumption 14. -/
def hexDigit (c : Char) : Option Nat :=
  if 'a'.toNat ≤ c.toNat ∧ c.toNat ≤ 'f'.toNat then some (c.toNat - 'a'.toNat + 10)
  else if 'A'.toNat ≤ c.toNat ∧ c.toNat ≤ 'F'.toNat then some (c.toNat - 'A'.toNat + 10)
  else decimalDigit c

/-- The value of a run of digits after the value `n`, or none if a character is no digit. -/
def digitsFrom (digit : Char → Option Nat) (base : Nat) : Nat → List Char → Option Nat
  | n, [] => some n
  | n, c :: cs =>
    match digit c with
    | some d => digitsFrom digit base (base * n + d) cs
    | none => none

/-- `decimal | '0x' hex` (R90): at least one digit. -/
def parseNumber : List Char → Option Nat
  | [] => none
  | ['0', 'x'] => none
  | '0' :: 'x' :: cs => digitsFrom hexDigit 16 0 cs
  | cs => digitsFrom decimalDigit 10 0 cs

/-- The tokens of a line, which spaces separate. See assumption 14. -/
def tokensFrom : List Char → List Char → List (List Char)
  | [], [] => []
  | current, [] => [current.reverse]
  | [], c :: cs => if c = ' ' then tokensFrom [] cs else tokensFrom [c] cs
  | p :: current, c :: cs =>
    if c = ' ' then (p :: current).reverse :: tokensFrom [] cs
    else tokensFrom (c :: p :: current) cs

/-- A number in a line of the form `f`. -/
def withNumber (f : Nat → AsmLine) (t : List Char) : Except AsmError AsmLine :=
  match parseNumber t with
  | some n => .ok (f n)
  | none => .error .badNumber

/-- The argument of PRINT: `acc`, `reg1` or a number (R90, R91). -/
def printArgument (t : List Char) : Except AsmError AsmLine :=
  if t = ['a', 'c', 'c'] then .ok (.print 0)
  else if t = ['r', 'e', 'g', '1'] then .ok (.print 1)
  else withNumber .print t

/-- The line that tokens spell (R90). -/
def parseTokens : List (List Char) → Except AsmError AsmLine
  | [m, t] =>
    if m = ['L', 'O', 'A', 'D'] then withNumber .load t
    else if m = ['A', 'D', 'D'] then withNumber .add t
    else if m = ['S', 'U', 'B'] then withNumber .sub t
    else if m = ['J', 'U', 'M', 'P'] then withNumber .jump t
    else if m = ['P', 'R', 'I', 'N', 'T'] then printArgument t
    else if m = ['L', 'A', 'B', 'E', 'L', '@'] then withNumber .label t
    else if m = ['.', 'w', 'o', 'r', 'd'] then withNumber .word t
    else .error .badLine
  | ['L' :: 'A' :: 'B' :: 'E' :: 'L' :: '@' :: t] => withNumber .label t
  | _ => .error .badLine

/-- A line of assembler text, read by the grammar of R90. -/
def parseLine (line : List Char) : Except AsmError AsmLine := parseTokens (tokensFrom [] line)

/-- The word a line of assembler text encodes to, or why it is refused (R90). -/
def assemble (line : List Char) : Except AsmError Word :=
  match parseLine line with
  | .ok l => assembleLine l
  | .error e => .error e

/-- The words of an assembler text, one instruction a line (R90); the first refused line refuses it. -/
def assembleAll : List (List Char) → Except AsmError (List Word)
  | [] => .ok []
  | line :: lines =>
    match assemble line with
    | .error e => .error e
    | .ok w =>
      match assembleAll lines with
      | .error e => .error e
      | .ok ws => .ok (w :: ws)

end Sys2Proof.Machine
end

