-- ==== Sys2Proof/Machine/Render.lean ====
section
/-! DEFINITION. The numeric codes of the diagnostics (R210) and the reference renderer of R104. Rendering
stands outside the block, and no claim may depend on the text. -/

namespace Sys2Proof.Machine

/-- The numeric code of a diagnostic (R210, D9). -/
def DiagKind.code : DiagKind → Nat
  | .unknownInstruction => 1
  | .invalidLabelOperand => 2
  | .unknownRegister => 3

/-- The name of a diagnostic (R103). -/
def DiagKind.name : DiagKind → List Char
  | .unknownInstruction => "UnknownInstruction".toList
  | .invalidLabelOperand => "InvalidLabelOperand".toList
  | .unknownRegister => "UnknownRegister".toList

/-- The name of a printed register (R103). -/
def Source.name : Source → List Char
  | .acc => "acc".toList
  | .ax => "ax".toList

/-- A number in signed decimal. -/
def signedDecimal : Int → List Char
  | .ofNat n => Nat.toDigits 10 n
  | .negSucc n => '-' :: Nat.toDigits 10 (n + 1)

/-- The line of a record (R104, D10): the register name and the value in signed decimal, the label
name, or the diagnostic's name. See assumption 15. -/
def TraceRecord.render : TraceRecord → List Char
  | .value src v => src.name ++ ' ' :: signedDecimal v
  | .label name => name
  | .diag kind => kind.name

end Sys2Proof.Machine
end

