-- ==== Sys2Proof/Safety.lean ====
section
/-! DEFINITION. What the statements are about: a safe run, the invariant of a run, the arithmetic value
of a run of instructions, and the parts of a state that are compared. -/

namespace Sys2Proof.Safety

open Sys2Proof.Machine

/-- The invariant of a run: R37(a) and (b), the range of `k` (R33), the bound of one record a step (R105),
what the records of the trace say (R103, R171), and the bound on names (R55). -/
structure Inv (s : State) : Prop where
  gpr0 : s.regs.gpr0 = 0
  gpr1 : s.regs.gpr1 = 0
  gpr2 : s.regs.gpr2 = 0
  flags : s.regs.flags = 0
  ip : s.regs.ip = 0
  seg : s.regs.seg = 0
  pc : s.regs.pc = 0 ∨ ∃ e ∈ s.labels, s.regs.pc = e.addr
  position : s.k ≤ s.program.length
  records : s.trace.length ≤ s.k
  axValues : ∀ v, .value .ax v ∈ s.trace → v = 0
  accValues : ∀ v, .value .acc v ∈ s.trace → -2 ^ 31 ≤ v ∧ v < 2 ^ 31
  labelRecords : ∀ name, .label name ∈ s.trace → ∃ e ∈ s.labels, e.name = name
  names : ∀ e ∈ s.labels, e.name.length ≤ Config.nameMax

/-- The run has ended: the position is at the end of the buffer and no host call is still to come. -/
def Ended (s : State) : Prop := s.k = s.program.length ∧ s.errCalls = []

/-- The accumulator as an exact integer after an instruction that finds it at `x`. -/
def accEffect (x : Int) : Instr → Int
  | .load v => v.toNat
  | .add v => x + v.toNat
  | .sub v => x - v.toNat
  | .jump _ => x
  | .print _ => x
  | .labelMarker _ => x
  | .unknown _ _ => x

/-- The arithmetic fold of a sequence of instructions from `x`, in program order (R139). -/
def accFold (x : Int) (is : List Instr) : Int := is.foldl accEffect x

/-- What ADD and SUB contribute to the fold of R139: `+v` and `-v`; the other instructions nothing. -/
def accDelta : Instr → Int
  | .load _ => 0
  | .add v => v.toNat
  | .sub v => -v.toNat
  | .jump _ => 0
  | .print _ => 0
  | .labelMarker _ => 0
  | .unknown _ _ => 0

/-- Whether an instruction is a LOAD. -/
def isLoad : Instr → Bool
  | .load _ => true
  | .add _ => false
  | .sub _ => false
  | .jump _ => false
  | .print _ => false
  | .labelMarker _ => false
  | .unknown _ _ => false

/-- The range of a signed 32-bit value (R8). A run whose sums stay in it never uses the wrap of
decision D2, so a claim about it does not rest on that decision. -/
def FitsSigned32 (x : Int) : Prop := -2 ^ 31 ≤ x ∧ x ≤ 2 ^ 31 - 1

/-- The state without what the host's `set_error_flags` calls touch: the indicators are 0, and no
call is still to come. -/
def eraseErr (s : State) : State :=
  { s with regs := { s.regs with err := .zero }, errCalls := [] }

/-- The state with other contents in the register fields that no instruction reads (R20). -/
def withUnread (s : State) (gpr1 gpr2 pc flags ip seg : Word) : State :=
  { s with regs := { s.regs with gpr1, gpr2, pc, flags, ip, seg } }

/-- The words from the position on, `n` of them, as instructions. -/
def upcoming (s : State) (n : Nat) : List Instr := ((s.program.drop s.k).take n).map decode

end Sys2Proof.Safety
end

