-- ==== Sys2Proof/Certificates/Slice0/Obligations.lean ====
section
/-! DEFINITION. The statements about the model, from the rules of the spec. "Assumption <n>" is a row of
notes/assumptions/; D<n> is a decision of spec/92_eei_decisions.md. -/

open Sys2Proof Sys2Proof.Machine Sys2Proof.Safety

/-! ### Reset, boot and the ports -/

/-- R250: after reset, and after `init` applied before a run, every register field is 0. -/
def Obligations.InitZeroesEveryRegister : Prop :=
  ∀ s : State, s.k = 0 →
    (∃ t, initPort s = .next t ∧
      t.regs.acc = 0 ∧ t.regs.gpr0 = 0 ∧ t.regs.gpr1 = 0 ∧ t.regs.gpr2 = 0 ∧ t.regs.pc = 0 ∧
      t.regs.flags = 0 ∧ t.regs.ip = 0 ∧ t.regs.seg = 0 ∧ t.regs.err.cpu = 0 ∧
      t.regs.err.ram = 0 ∧ t.regs.err.gpu = 0 ∧ t.regs.err.disk = 0) ∧
    (let S := State.reset.regs
     S.acc = 0 ∧ S.gpr0 = 0 ∧ S.gpr1 = 0 ∧ S.gpr2 = 0 ∧ S.pc = 0 ∧ S.flags = 0 ∧ S.ip = 0 ∧
      S.seg = 0 ∧ S.err.cpu = 0 ∧ S.err.ram = 0 ∧ S.err.gpu = 0 ∧ S.err.disk = 0)

/-- A run starts at position 0 with an empty trace (decision D19). The empty Label Table and program
buffer and the empty list of host calls are the model's choice (assumptions 5 and 6). -/
def Obligations.ResetStartsARun : Prop :=
  State.reset.k = 0 ∧ State.reset.trace = [] ∧ State.reset.labels = [] ∧
    State.reset.program = [] ∧ State.reset.errCalls = []

/-- Decision D19 and 70_reset_and_hazards.md section 2: `init` touches neither the Label Table nor the
program buffer, is not admitted during a run, and the boot steps come in either order. That "during
a run" is `k ≠ 0` is the model's choice (assumption 7). -/
def Obligations.InitKeepsTheInputs : Prop :=
  ∀ (s : State) (name : LabelName) (address : Nat) (P : ProgramBuffer),
    (∀ t, initPort s = .next t → t.labels = s.labels ∧ t.program = s.program) ∧
    (s.k ≠ 0 → initPort s = .refused .initDuringRun) ∧
    (∀ t u v, initPort s = .next t → addLabel name address t = .next u →
      addLabel name address s = .next v → initPort v = .next u) ∧
    (∀ t u v, initPort s = .next t → loadProgram P t = .next u →
      loadProgram P s = .next v → initPort v = .next u)

/-- 20_memory.md section 2 with decisions D3, D11, D12, D18: `add_label` before a run appends the entry at
position `L` and leaves every earlier entry; a name longer than NAME_MAX is refused, and so is a call
during a run (assumption 7). -/
def Obligations.AddLabelAppends : Prop :=
  ∀ (s : State) (name : LabelName) (address : Nat),
    (s.k = 0 → name.length ≤ Config.nameMax →
      ∃ t, addLabel name address s = .next t ∧
        t = { s with labels := t.labels } ∧
        labelCount t.labels = labelCount s.labels + 1 ∧
        labelAt t.labels (labelCount s.labels) =
          some { name := name, addr := BitVec.ofNat 32 address } ∧
        ∀ i, i < labelCount s.labels → labelAt t.labels i = labelAt s.labels i) ∧
    (s.k = 0 → Config.nameMax < name.length →
      addLabel name address s = .refused .labelNameTooLong) ∧
    (s.k ≠ 0 → addLabel name address s = .refused .labelWriteDuringRun)

/-- 40_dispatch.md section 1: the program buffer is supplied before the run, and in no other way
(assumption 7). -/
def Obligations.ProgramIsSuppliedBeforeTheRun : Prop :=
  ∀ (s : State) (P : ProgramBuffer),
    (s.k = 0 → loadProgram P s = .next { s with program := P }) ∧
    (s.k ≠ 0 → loadProgram P s = .refused .programLoadDuringRun)

/-- R220: the strict priority order of `set_error_flags`, and what a call of four zeros does. -/
def Obligations.SetErrorFlagsPriority : Prop :=
  ∀ (c r g d : Word) (e : ErrIndicators),
    (c ≠ 0 → setErrorFlags c r g d e = { e with cpu := c }) ∧
    (c = 0 → r ≠ 0 → setErrorFlags c r g d e = { e with ram := r }) ∧
    (c = 0 → r = 0 → g ≠ 0 → setErrorFlags c r g d e = { e with gpu := g }) ∧
    (c = 0 → r = 0 → g = 0 → d ≠ 0 → setErrorFlags c r g d e = { e with disk := d }) ∧
    (c = 0 → r = 0 → g = 0 → d = 0 → setErrorFlags c r g d e = e)

/-- 10_state.md section 10 (c) and 60_exceptions.md section 3: of the four indicators at least three keep
their values over a call, and no call clears an indicator that held a code. -/
def Obligations.SetErrorFlagsChangesAtMostOne : Prop :=
  ∀ (c r g d : Word) (e e' : ErrIndicators), setErrorFlags c r g d e = e' →
    ([decide (e'.cpu ≠ e.cpu), decide (e'.ram ≠ e.ram), decide (e'.gpu ≠ e.gpu),
      decide (e'.disk ≠ e.disk)].count true ≤ 1) ∧
    (e.cpu ≠ 0 → e'.cpu ≠ 0) ∧ (e.ram ≠ 0 → e'.ram ≠ 0) ∧ (e.gpu ≠ 0 → e'.gpu ≠ 0) ∧
    (e.disk ≠ 0 → e'.disk ≠ 0)

/-- 40_dispatch.md section 5 with decision D23: the host reads the whole Register State at `k = N`, and
not before. -/
def Obligations.StateIsReadAtTheEnd : Prop :=
  ∀ s : State,
    (s.k = s.program.length → readState s = some s.regs) ∧
    (s.k < s.program.length → readState s = none)

/-- The ports keep the invariant of a run. -/
def Obligations.PortsKeepTheInvariant : Prop :=
  ∀ (s t : State) (name : LabelName) (address : Nat) (P : ProgramBuffer) (c r g d : Word),
    Inv s →
    (initPort s = .next t ∨ addLabel name address s = .next t ∨ loadProgram P s = .next t ∨
      errUpdate c r g d s = t) →
    Inv t

/-! ### Decode and encode -/

/-- R81: every 32-bit word decodes, and its fields are the ones of the source's formula. -/
def Obligations.DecodeFormula : Prop :=
  ∀ w : Word,
    ((decodeFields w).1).toNat = (w.toNat >>> 24) &&& 0xFF ∧
    ((decodeFields w).2).toNat = w.toNat &&& 0xFFFFFF

/-- R84: the opcode byte selects the instruction, and the operand bits never change which. -/
def Obligations.OpcodeMap : Prop :=
  ∀ v : Operand,
    decode (0x01#8 ++ v) = .load v ∧ decode (0x02#8 ++ v) = .add v ∧
    decode (0x03#8 ++ v) = .sub v ∧ decode (0x04#8 ++ v) = .jump v ∧
    decode (0x05#8 ++ v) = .print v ∧ decode (0x06#8 ++ v) = .labelMarker v ∧
    ∀ op : Opcode, (op = 0x00#8 ∨ 0x07#8 ≤ op) → decode (op ++ v) = .unknown op v

/-- 95_test_vectors.md section 2, vectors D-1 to D-6: the words, written out. -/
def Obligations.DecodeVectors : Prop :=
  decode 0x0100000A#32 = .load 10#24 ∧ decode 0x06AAAAAA#32 = .labelMarker 0xAAAAAA#24 ∧
  decode 0x00000000#32 = .unknown 0x00#8 0#24 ∧
  decode 0xFFFFFFFF#32 = .unknown 0xFF#8 0xFFFFFF#24 ∧
  decode 0x05FFFFFF#32 = .print 0xFFFFFF#24 ∧ decode 0x07000001#32 = .unknown 0x07#8 1#24

/-- 30_encoding.md section 2 (marked derived there): a well-formed instruction survives encoding, with
every operand at every value. -/
def Obligations.DecodeOfEncode : Prop :=
  ∀ i : Instr, i.wf = true → decode (encode i) = i

/-- 30_encoding.md section 2 (marked derived there): every word is the encoding of what it decodes to, and
that is a well-formed instruction. -/
def Obligations.EncodeOfDecode : Prop :=
  ∀ w : Word, encode (decode w) = w ∧ (decode w).wf = true

/-- 30_encoding.md section 2 (marked derived there): the two fields of a word and their concatenation are
inverse to each other. -/
def Obligations.FieldsRoundTrip : Prop :=
  (∀ (o : Opcode) (v : Operand), decodeFields (encodeFields o v) = (o, v)) ∧
  ∀ w : Word, encodeFields (decodeFields w).1 (decodeFields w).2 = w

/-- 20_memory.md section 1 with decision D16: for either byte order, a loader outside the block gets the
words of a buffer back from their bytes in that order. -/
def Obligations.LoaderReadsWordsInItsByteOrder : Prop :=
  ∀ ws : List Word,
    wordsOfBytes .little
        (ws.flatMap fun w => [w.extractLsb' 0 8, w.extractLsb' 8 8, w.extractLsb' 16 8,
          w.extractLsb' 24 8]) = .ok ws ∧
    wordsOfBytes .big
        (ws.flatMap fun w => [w.extractLsb' 24 8, w.extractLsb' 16 8, w.extractLsb' 8 8,
          w.extractLsb' 0 8]) = .ok ws

/-- 30_encoding.md section 4 with decision D24: each form of the assembler encodes an immediate of 24 bits
under its opcode and refuses a wider one. -/
def Obligations.AssemblerRefusesWideImmediates : Prop :=
  ∀ n : Nat,
    (n ≤ 0xFFFFFF →
      assembleLine (.load n) = .ok (encode (.load (BitVec.ofNat 24 n))) ∧
      assembleLine (.add n) = .ok (encode (.add (BitVec.ofNat 24 n))) ∧
      assembleLine (.sub n) = .ok (encode (.sub (BitVec.ofNat 24 n))) ∧
      assembleLine (.jump n) = .ok (encode (.jump (BitVec.ofNat 24 n))) ∧
      assembleLine (.print n) = .ok (encode (.print (BitVec.ofNat 24 n))) ∧
      assembleLine (.label n) = .ok (encode (.labelMarker (BitVec.ofNat 24 n)))) ∧
    (0xFFFFFF < n →
      assembleLine (.load n) = .error .tooWide ∧ assembleLine (.add n) = .error .tooWide ∧
      assembleLine (.sub n) = .error .tooWide ∧ assembleLine (.jump n) = .error .tooWide ∧
      assembleLine (.print n) = .error .tooWide ∧ assembleLine (.label n) = .error .tooWide)

/-! ### The instructions -/

/-- R130: LOAD, for every operand and state. The conclusion names the whole next state, so everything
but `acc` is unchanged. -/
def Obligations.LoadResult : Prop :=
  ∀ (v : Operand) (s : State),
    encode (.load v) = 0x01#8 ++ v ∧
    exec (.load v) s = .next { s with regs := { s.regs with acc := v.setWidth 32 } }

/-- 41_accumulator.md section 1 (marked derived there): LOAD alone gives exactly the values 0 to 16777215,
and never a negative one. -/
def Obligations.LoadGivesTheUnsignedOperands : Prop :=
  (∀ (v : Operand) (s t : State), exec (.load v) s = .next t →
    t.regs.acc.toInt = v.toNat ∧ t.regs.acc.toNat ≤ 16777215) ∧
  ∀ n : Nat, n ≤ 16777215 → ∀ s : State, ∃ (v : Operand) (t : State),
    exec (.load v) s = .next t ∧ t.regs.acc.toNat = n

/-- 41_accumulator.md section 2: ADD, for every operand and state. The width and the wrap are decisions D1
and D2 (assumptions 1 and 2). Everything but `acc` is unchanged. -/
def Obligations.AddResult : Prop :=
  ∀ (v : Operand) (s : State),
    encode (.add v) = 0x02#8 ++ v ∧
    exec (.add v) s =
      .next { s with regs := { s.regs with acc := s.regs.acc + v.setWidth 32 } }

/-- 41_accumulator.md section 3: SUB, for every operand and state. The width and the wrap are decisions D1
and D2 (assumptions 1 and 2). Everything but `acc` is unchanged. -/
def Obligations.SubResult : Prop :=
  ∀ (v : Operand) (s : State),
    encode (.sub v) = 0x03#8 ++ v ∧
    exec (.sub v) s =
      .next { s with regs := { s.regs with acc := s.regs.acc - v.setWidth 32 } }

/-- 41_accumulator.md sections 2 to 4: the signed reading of a sum or difference is the exact integer when
that fits in 32 bits, and is off by exactly 2^32 when it does not (decisions D1, D2). -/
def Obligations.SignedSumAndDifference : Prop :=
  ∀ (v : Operand) (s t : State),
    (exec (.add v) s = .next t →
      (s.regs.acc.toInt + v.toNat ≤ 2 ^ 31 - 1 →
        t.regs.acc.toInt = s.regs.acc.toInt + v.toNat) ∧
      (2 ^ 31 - 1 < s.regs.acc.toInt + v.toNat →
        t.regs.acc.toInt = s.regs.acc.toInt + v.toNat - 2 ^ 32)) ∧
    (exec (.sub v) s = .next t →
      (-2 ^ 31 ≤ s.regs.acc.toInt - v.toNat →
        t.regs.acc.toInt = s.regs.acc.toInt - v.toNat) ∧
      (s.regs.acc.toInt - v.toNat < -2 ^ 31 →
        t.regs.acc.toInt = s.regs.acc.toInt - v.toNat + 2 ^ 32))

/-- R150: JUMP with an operand that is a position of the Label Table writes the stored address there to
`pc`, whole, and emits nothing; any other operand gives one diagnostic and changes no register. -/
def Obligations.JumpResult : Prop :=
  ∀ (i : Operand) (s : State),
    encode (.jump i) = 0x04#8 ++ i ∧
    (∀ h : i.toNat < s.labels.length,
      exec (.jump i) s = .next { s with regs := { s.regs with pc := (s.labels[i.toNat]).addr } }) ∧
    (s.labels.length ≤ i.toNat →
      exec (.jump i) s = .next { s with trace := s.trace ++ [.diag .invalidLabelOperand] })

/-- R152: JUMP goes by position: `pc` becomes the address stored at the operand's position. Two tables that store the same address at the operand's position (or that
both have no such position) give the same next state, whatever stands elsewhere in them and whatever
the names are. -/
def Obligations.JumpReadsOnePosition : Prop :=
  ∀ (i : Operand) (s t : State) (T : LabelTable),
    s.labels[i.toNat]?.map LabelEntry.addr = T[i.toNat]?.map LabelEntry.addr →
    exec (.jump i) s = .next t →
    (∀ h : i.toNat < s.labels.length, t.regs.pc = (s.labels[i.toNat]).addr) ∧
    exec (.jump i) { s with labels := T } = .next { t with labels := T }

/-- 42_jump.md section 1: a label that is added when the table holds `n` entries is what JUMP with the
operand `n` reaches, whatever its address (R56). -/
def Obligations.AddedLabelIsReachedByItsPosition : Prop :=
  ∀ (s t : State) (name : LabelName) (address : Nat) (i : Operand),
    addLabel name address s = .next t → i.toNat = s.labels.length →
    exec (.jump i) t = .next { t with regs := { t.regs with pc := BitVec.ofNat 32 address } }

/-- 43_print.md section 1: PRINT with operand 0, 1 and any other operand; the signed reading of `gpr[0]` is
decision D25 (assumption 16). No register changes. -/
def Obligations.PrintResult : Prop :=
  ∀ (r : Operand) (s : State),
    encode (.print r) = 0x05#8 ++ r ∧
    (r = 0#24 →
      exec (.print r) s = .next { s with trace := s.trace ++ [.value .acc s.regs.acc.toInt] }) ∧
    (r = 1#24 →
      exec (.print r) s = .next { s with trace := s.trace ++ [.value .ax s.regs.gpr0.toInt] }) ∧
    (2 ≤ r.toNat →
      exec (.print r) s = .next { s with trace := s.trace ++ [.diag .unknownRegister] })

/-- 43_print.md section 1 (marked derived there): in a run, PRINT with operand 1 emits the value 0. -/
def Obligations.PrintAxEmitsZero : Prop :=
  ∀ s : State, Inv s →
    exec (.print 1#24) s = .next { s with trace := s.trace ++ [.value .ax 0] }

/-- R190: the marker pass emits the name of the first entry whose stored address is the operand; with no
such entry nothing at all changes. -/
def Obligations.MarkerResult : Prop :=
  ∀ (a : Operand) (s : State),
    encode (.labelMarker a) = 0x06#8 ++ a ∧
    (∀ (p : Nat) (e : LabelEntry), s.labels[p]? = some e → e.addr = a.setWidth 32 →
      (∀ q e', q < p → s.labels[q]? = some e' → e'.addr ≠ a.setWidth 32) →
      exec (.labelMarker a) s = .next { s with trace := s.trace ++ [.label e.name] }) ∧
    ((∀ e ∈ s.labels, e.addr ≠ a.setWidth 32) → exec (.labelMarker a) s = .next s)

/-- 44_marker_unknown.md section 1 and 20_memory.md section 2: the marker pass goes by stored address and
ignores positions. Two tables whose entries with the operand's address are the same, in the same order,
give the same next state. -/
def Obligations.MarkerIgnoresPositions : Prop :=
  ∀ (a : Operand) (s t : State) (T : LabelTable),
    s.labels.filter (fun e => e.addr == a.setWidth 32) =
      T.filter (fun e => e.addr == a.setWidth 32) →
    exec (.labelMarker a) s = .next t →
    exec (.labelMarker a) { s with labels := T } = .next { t with labels := T }

/-- 20_memory.md section 2 (marked derived there): an entry whose address is above 0xFFFFFF is matched by
no marker, so the marker pass answers as if the table did not hold it. -/
def Obligations.WideAddressesAreNeverMatched : Prop :=
  ∀ (a : Operand) (s t : State), exec (.labelMarker a) s = .next t →
    exec (.labelMarker a)
        { s with labels := s.labels.filter fun e => decide (e.addr.toNat ≤ 0xFFFFFF) } =
      .next { t with labels := s.labels.filter fun e => decide (e.addr.toNat ≤ 0xFFFFFF) }

/-- 20_memory.md section 2 (equality of 32-bit patterns is decision D13): the port by stored address answers an entry exactly
when that entry stands at some position and no earlier entry has the address. -/
def Obligations.FindByAddressIsFirstMatch : Prop :=
  ∀ (T : LabelTable) (a : Word) (e : LabelEntry),
    labelFindAddr T a = some e ↔
      ∃ p, labelAt T p = some e ∧ e.addr = a ∧
        ∀ q e', q < p → labelAt T q = some e' → e'.addr ≠ a

/-- R194: an unknown opcode, with any operand, emits one diagnostic and changes no register. -/
def Obligations.UnknownResult : Prop :=
  ∀ (op : Opcode) (v : Operand) (s : State),
    (op ≠ 0x01#8 → op ≠ 0x02#8 → op ≠ 0x03#8 → op ≠ 0x04#8 → op ≠ 0x05#8 → op ≠ 0x06#8 →
      decode (op ++ v) = .unknown op v) ∧
    exec (.unknown op v) s = .next { s with trace := s.trace ++ [.diag .unknownInstruction] }

/-- R86: the unknown space is the opcode values 0x00 and 0x07 to 0xFF. A word with such an opcode decodes,
emits one diagnostic, changes no register and does not trap; a word with any other opcode decodes to
one of the six instructions. -/
def Obligations.UnknownSpace : Prop :=
  ∀ (op : Opcode) (v : Operand) (s : State),
    ((op = 0x00#8 ∨ 0x07#8 ≤ op) →
      exec (decode (op ++ v)) s =
        .next { s with trace := s.trace ++ [.diag .unknownInstruction] }) ∧
    ((op = 0x00#8 ∨ 0x07#8 ≤ op) ↔ ∃ op' v', decode (op ++ v) = .unknown op' v')

/-- R107: the Executor never fails. Every instruction, in every state, answers a next state; the Executor
itself is total and gives at most one record. -/
def Obligations.ExecutorNeverFails : Prop :=
  (∀ (i : Instr) (s : State), ∃ t, exec i s = .next t) ∧
  ∀ (S : Regs) (op : Opcode) (v : Operand) (T : LabelTable), (execute S op v T).2.length ≤ 1

/-- 44_marker_unknown.md section 2 with decision D21: the Executor's own 0x06 arm has no effect and emits
nothing. -/
def Obligations.ExecutorMarkerArmHasNoEffect : Prop :=
  ∀ (S : Regs) (a : Operand) (T : LabelTable), execute S 0x06#8 a T = (S, [])

/-- 40_dispatch.md section 3: the Executor reads the Label Table only for JUMP. -/
def Obligations.OnlyJumpReadsTheTable : Prop :=
  ∀ (S : Regs) (op : Opcode) (v : Operand) (T T' : LabelTable), op ≠ 0x04#8 →
    execute S op v T = execute S op v T'

/-- What an instruction leaves unchanged (10_state.md, 20_memory.md section 5): the inputs, the position
and the host's calls, always; the general registers, `flags`, `ip`, `seg` and the error indicators,
always; `acc` unless it is LOAD, ADD or SUB; `pc` unless it is JUMP; and every record emitted so far,
with at most one new record at the end. -/
def Obligations.ExecFrame : Prop :=
  ∀ (i : Instr) (s t : State), exec i s = .next t →
    t.labels = s.labels ∧ t.program = s.program ∧ t.k = s.k ∧ t.errCalls = s.errCalls ∧
    t.regs.gpr0 = s.regs.gpr0 ∧ t.regs.gpr1 = s.regs.gpr1 ∧ t.regs.gpr2 = s.regs.gpr2 ∧
    t.regs.flags = s.regs.flags ∧ t.regs.ip = s.regs.ip ∧ t.regs.seg = s.regs.seg ∧
    t.regs.err = s.regs.err ∧
    ((∀ v, i ≠ .load v ∧ i ≠ .add v ∧ i ≠ .sub v) → t.regs.acc = s.regs.acc) ∧
    ((∀ v, i ≠ .jump v) → t.regs.pc = s.regs.pc) ∧
    ∃ rs, t.trace = s.trace ++ rs ∧ rs.length ≤ 1

/-- R211: an instruction that raises a diagnostic writes no register field, and the next step processes
the next position. -/
def Obligations.DiagnosticsChangeNoRegister : Prop :=
  ∀ (s t : State) (kind : DiagKind), seqStep s = .next t →
    t.trace = s.trace ++ [.diag kind] → t.regs = s.regs ∧ t.k = s.k + 1

/-- 60_exceptions.md sections 1 and 2: which instruction raises which diagnostic, and exactly when. -/
def Obligations.DiagnosticCauses : Prop :=
  ∀ (i : Instr) (s t : State), exec i s = .next t →
    (t.trace = s.trace ++ [.diag .unknownInstruction] ↔ ∃ op v, i = .unknown op v) ∧
    (t.trace = s.trace ++ [.diag .invalidLabelOperand] ↔
      ∃ v, i = .jump v ∧ s.labels.length ≤ v.toNat) ∧
    (t.trace = s.trace ++ [.diag .unknownRegister] ↔ ∃ v, i = .print v ∧ 2 ≤ v.toNat)

/-- 60_exceptions.md section 3: the error indicators are passive. No instruction reads or writes them: with any other contents
of the indicators an instruction does the same and leaves them as they are. -/
def Obligations.ErrorIndicatorsArePassive : Prop :=
  ∀ (i : Instr) (s t : State) (e : ErrIndicators), exec i s = .next t →
    t.regs.err = s.regs.err ∧
    exec i { s with regs := { s.regs with err := e } } =
      .next { t with regs := { t.regs with err := e } }

/-! ### The step and the run -/

/-- R108: one step of the sequencer at a position that holds the word `w`: opcode 0x06 takes the marker
pass, any other opcode the Executor on the whole of `(S, opcode, operand, T)`, whose records are
emitted; then `k` is one more. At a position past the last word there is no next state. -/
def Obligations.SequencerStep : Prop :=
  (∀ s t : State, s.program.length ≤ s.k → seqStep s ≠ .next t) ∧
  ∀ (s : State) (w : Word), s.program[s.k]? = some w →
    (opcodeField w = 0x06#8 →
      seqStep s = .next { markerPass (operandField w) s with k := s.k + 1 }) ∧
    (opcodeField w ≠ 0x06#8 → ∀ S rs,
      execute s.regs (opcodeField w) (operandField w) s.labels = (S, rs) →
      seqStep s = .next { s with regs := S, trace := s.trace ++ rs, k := s.k + 1 })

/-- When no host call comes now and the word at the position decodes to `i`, a step runs exactly `i`, as
`exec` gives it, and moves to the next position. -/
def Obligations.StepRunsTheDecodedInstruction : Prop :=
  ∀ (s t : State) (w : Word), (∀ c ∈ s.errCalls.head?, s.k < c.pos) →
    s.program[s.k]? = some w → exec (decode w) s = .next t →
    step s = .next { t with k := s.k + 1 }

/-- 40_dispatch.md section 4 with decision D14: a host call that comes now is applied between two steps,
and nothing else happens. The list that holds the calls is the model's choice (assumption 6). -/
def Obligations.StepMakesTheHostCall : Prop :=
  ∀ (s : State) (c : ErrCall) (rest : List ErrCall), s.errCalls = c :: rest → c.pos ≤ s.k →
    step s = .next { s with
      regs := { s.regs with err := setErrorFlags c.cpu c.ram c.gpu c.disk s.regs.err }
      errCalls := rest }

/-- 40_dispatch.md section 5 and 60_exceptions.md section 4: after the last word, with no host call left,
the block takes no step. That the model answers this with the fault `runEnded` is its own choice
(assumption 4). -/
def Obligations.NoStepAfterTheEnd : Prop :=
  ∀ s : State, Ended s → step s = .fault .runEnded

/-- 40_dispatch.md section 5: no condition is fatal to a run. A step gives no next state exactly when the
position has passed the last word and no host call comes now (assumption 4). -/
def Obligations.StepStopsOnlyAtTheEnd : Prop :=
  ∀ s : State, (∀ t, step s ≠ .next t) ↔
    (s.program.length ≤ s.k ∧ ∀ c ∈ s.errCalls.head?, s.k < c.pos)

/-- 10_state.md section 8: the position starts at 0, stays in 0..N and increases by exactly 1 with a step of the sequencer.
No instruction reads or writes it: at any other position an instruction does the same. -/
def Obligations.PositionAdvancesByOne : Prop :=
  State.reset.k = 0 ∧
  (∀ s t : State, seqStep s = .next t → t.k = s.k + 1 ∧ t.k ≤ t.program.length) ∧
  ∀ (i : Instr) (s t : State) (j : Nat), exec i s = .next t →
    t.k = s.k ∧ exec i { s with k := j } = .next { t with k := j }

/-- R153: JUMP does not transfer control. The word processed after a JUMP at position `k`, in range or
not, is the word at position `k + 1`, whatever `pc` now holds. -/
def Obligations.JumpDoesNotRedirect : Prop :=
  ∀ (s : State) (i : Operand) (w : Word), s.program[s.k]? = some (0x04#8 ++ i) →
    s.program[s.k + 1]? = some w →
    ∃ t, seqStep s = .next t ∧ progWord t.program t.k = some w

/-- The word that `withFetchWord` places is what the next step runs, from every state. -/
def Obligations.WithFetchWordRunsTheWord : Prop :=
  ∀ (s : State) (w : Word), ∃ t,
    exec (decode w) (s.withFetchWord 32 w.toNat) = .next t ∧
    step (s.withFetchWord 32 w.toNat) = .next { t with k := s.k + 1 } ∧
    (s.withFetchWord 32 w.toNat).regs = s.regs ∧ (s.withFetchWord 32 w.toNat).labels = s.labels ∧
    (s.withFetchWord 32 w.toNat).trace = s.trace ∧ (s.withFetchWord 32 w.toNat).k = s.k

/-- 10_state.md section 10 (a) and (b) (marked derived there), with the bounds on the position, the trace
and the names: every step keeps them, from every state that has them. -/
def Obligations.StepKeepsTheInvariant : Prop :=
  ∀ s t : State, Inv s → step s = .next t → Inv t

/-- The state after reset meets the invariant of a run. -/
def Obligations.ResetMeetsTheInvariant : Prop := Inv State.reset

/-- 20_memory.md sections 2 and 5: the Label Table, and with it the program buffer, is constant during a run, however many steps it
takes. -/
def Obligations.InputsAreConstant : Prop :=
  ∀ (n : Nat) (s t : State), core.run n s = .next t →
    t.labels = s.labels ∧ t.program = s.program

/-- 40_dispatch.md section 2: nothing removes or reorders a record, and a run emits at most one record for
each word it processes. -/
def Obligations.TraceOnlyGrows : Prop :=
  ∀ (n : Nat) (s t : State), core.run n s = .next t →
    s.k ≤ t.k ∧ ∃ rs, t.trace = s.trace ++ rs ∧ rs.length ≤ t.k - s.k

/-- 40_dispatch.md section 5: from any position in the buffer, with no host call to come, exactly as many
steps as words remain can be taken: the run reaches the end after them, every earlier step answers a
next state, and no step is possible after them (the fault `runEnded` of assumption 4). -/
def Obligations.RunTakesExactlyNSteps : Prop :=
  ∀ s : State, s.errCalls = [] → s.k ≤ s.program.length →
    (∃ t, core.run (s.program.length - s.k) s = .next t ∧ Ended t ∧
      t.labels = s.labels ∧ t.program = s.program ∧ readState t = some t.regs) ∧
    (∀ m, m ≤ s.program.length - s.k → ∃ t, core.run m s = .next t ∧ t.k = s.k + m) ∧
    ∀ m, s.program.length - s.k < m → core.run m s = .fault .runEnded

/-- 41_accumulator.md section 4 (marked derived there; widths and wrap are decisions D1, D2): after any
number of words the accumulator is the arithmetic fold of the instructions, computed in the integers
and then reduced modulo 2^32. -/
def Obligations.AccumulatorIsTheFold : Prop :=
  ∀ (n : Nat) (s : State), s.errCalls = [] → s.k + n ≤ s.program.length →
    ∃ t, core.run n s = .next t ∧
      t.regs.acc = BitVec.ofInt 32 (accFold s.regs.acc.toInt (upcoming s n))

/-- 41_accumulator.md section 4 (marked derived there): after `LOAD v0` and any words that are no LOAD, the
accumulator is `v0 ± v1 ± … ± vn` modulo 2^32, and its signed reading is exactly that sum when the sum
fits in 32 bits (decisions D1, D2). -/
def Obligations.LoadThenSumsIsTheFold : Prop :=
  ∀ (s : State) (v0 : Operand) (is : List Instr), s.errCalls = [] →
    s.k + (is.length + 1) ≤ s.program.length →
    upcoming s (is.length + 1) = .load v0 :: is → (∀ i ∈ is, isLoad i = false) →
    ∃ t, core.run (is.length + 1) s = .next t ∧
      t.regs.acc = BitVec.ofInt 32 (v0.toNat + (is.map accDelta).sum) ∧
      (FitsSigned32 (v0.toNat + (is.map accDelta).sum) →
        t.regs.acc.toInt = v0.toNat + (is.map accDelta).sum)

/-- 40_dispatch.md section 5 (marked derived there) and 60_exceptions.md section 3: the host's
`set_error_flags` calls change nothing but the error indicators. A run with any calls, at any times,
agrees with a run without them in the trace, the position and every other field. -/
def Obligations.ErrorCallsChangeNothingElse : Prop :=
  ∀ (m : Nat) (s t : State), core.run m s = .next t →
    ∃ m', m' ≤ m ∧ core.run m' (eraseErr s) = .next (eraseErr t)

/-- 10_state.md section 1, column "read by" (marked derived there): no run reads `gpr[1]`, `gpr[2]`, `pc`,
`flags`, `ip` or `seg`. With other contents there, a run of any length takes the same steps and agrees
in everything else, the trace among it, and those fields but `pc` keep the other contents. -/
def Obligations.UnreadFieldsNeverMatter : Prop :=
  ∀ (m : Nat) (s t : State) (g1 g2 pc flags ip seg : Word), core.run m s = .next t →
    ∃ pc', core.run m (withUnread s g1 g2 pc flags ip seg) =
      .next (withUnread t g1 g2 pc' flags ip seg)

/-- 44_marker_unknown.md section 3 (marked derived there): words of the unknown space alone leave the
Register State as it was and emit one diagnostic each. -/
def Obligations.UnknownWordsOnlyEmitDiagnostics : Prop :=
  ∀ (n : Nat) (s : State), s.errCalls = [] → s.k + n ≤ s.program.length →
    (∀ w ∈ (s.program.drop s.k).take n, Opcode.isUnknown (opcodeField w) = true) →
    ∃ t, core.run n s = .next t ∧ t.regs = s.regs ∧
      t.trace = s.trace ++ List.replicate n (.diag .unknownInstruction)
end

