-- ==== Sys2Proof/Laws/Decode.lean ====
section
/-! SUPPORT. The fields of a word and their concatenation. -/

namespace Sys2Proof.Laws

/-- The number of a concatenation: the opcode stands above the 24 operand bits (R85). -/
theorem append_toNat (op : Opcode) (v : Operand) :
    (op ++ v : Word).toNat = op.toNat * 2 ^ 24 + v.toNat := by
  have h := v.isLt
  refine (BitVec.toNat_append op v).trans ?_
  rw [← Nat.shiftLeft_add_eq_or_of_lt h, Nat.shiftLeft_eq]

@[simp] theorem opcodeField_toNat (w : Word) : (opcodeField w).toNat = w.toNat / 2 ^ 24 := by
  have h := w.isLt
  simp [opcodeField, Nat.shiftRight_eq_div_pow]
  omega

@[simp] theorem operandField_toNat (w : Word) : (operandField w).toNat = w.toNat % 2 ^ 24 := by
  simp [operandField]

@[simp] theorem opcodeField_append (op : Opcode) (v : Operand) : opcodeField (op ++ v) = op := by
  apply BitVec.eq_of_toNat_eq
  have h := v.isLt
  rw [opcodeField_toNat, append_toNat]
  omega

@[simp] theorem operandField_append (op : Opcode) (v : Operand) : operandField (op ++ v) = v := by
  apply BitVec.eq_of_toNat_eq
  have h := v.isLt
  rw [operandField_toNat, append_toNat]
  omega

/-- The two fields of a word are all of it. -/
theorem fields_append (w : Word) : opcodeField w ++ operandField w = w := by
  apply BitVec.eq_of_toNat_eq
  rw [append_toNat, opcodeField_toNat, operandField_toNat]
  omega

/-- The cases of the opcode map (R84): the six opcodes, or an opcode of the unknown space. -/
theorem instrOf_cases (op : Opcode) (v : Operand) :
    (op = 0x01#8 ∧ instrOf op v = .load v) ∨ (op = 0x02#8 ∧ instrOf op v = .add v) ∨
    (op = 0x03#8 ∧ instrOf op v = .sub v) ∨ (op = 0x04#8 ∧ instrOf op v = .jump v) ∨
    (op = 0x05#8 ∧ instrOf op v = .print v) ∨ (op = 0x06#8 ∧ instrOf op v = .labelMarker v) ∨
    (Opcode.isUnknown op = true ∧ instrOf op v = .unknown op v) := by
  unfold instrOf
  split
  case h_7 h1 h2 h3 h4 h5 h6 =>
    refine .inr (.inr (.inr (.inr (.inr (.inr ⟨?_, rfl⟩)))))
    have key : ∀ n : Opcode, op ≠ n → op.toNat ≠ n.toNat := fun n h h' => h (BitVec.eq_of_toNat_eq h')
    have k1 := key _ h1
    have k2 := key _ h2
    have k3 := key _ h3
    have k4 := key _ h4
    have k5 := key _ h5
    have k6 := key _ h6
    simp at k1 k2 k3 k4 k5 k6
    simp only [Opcode.isUnknown, Bool.or_eq_true, beq_iff_eq, decide_eq_true_eq]
    omega
  all_goals simp

/-- An opcode of the unknown space selects the default arm (R84, R86). -/
theorem instrOf_unknown {op : Opcode} (v : Operand) (h : Opcode.isUnknown op = true) :
    instrOf op v = .unknown op v := by
  rcases instrOf_cases op v with ⟨rfl, _⟩ | ⟨rfl, _⟩ | ⟨rfl, _⟩ | ⟨rfl, _⟩ | ⟨rfl, _⟩ | ⟨rfl, _⟩ | h'
  all_goals first | exact absurd h (by decide) | exact h'.2

end Sys2Proof.Laws
end

