-- ==== Sys2Proof/Laws/State.lean ====
section
/-! SUPPORT. One lemma per field per update of the state. -/

namespace Sys2Proof.Laws

open Sys2Proof.Machine

section Registers
variable (S : Regs) (v : Word)

@[simp] theorem writeAcc_acc : (writeAcc S v).acc = v := rfl
@[simp] theorem writeAcc_gpr0 : (writeAcc S v).gpr0 = S.gpr0 := rfl
@[simp] theorem writeAcc_gpr1 : (writeAcc S v).gpr1 = S.gpr1 := rfl
@[simp] theorem writeAcc_gpr2 : (writeAcc S v).gpr2 = S.gpr2 := rfl
@[simp] theorem writeAcc_pc : (writeAcc S v).pc = S.pc := rfl
@[simp] theorem writeAcc_flags : (writeAcc S v).flags = S.flags := rfl
@[simp] theorem writeAcc_ip : (writeAcc S v).ip = S.ip := rfl
@[simp] theorem writeAcc_seg : (writeAcc S v).seg = S.seg := rfl
@[simp] theorem writeAcc_err : (writeAcc S v).err = S.err := rfl

@[simp] theorem writePc_acc : (writePc S v).acc = S.acc := rfl
@[simp] theorem writePc_gpr0 : (writePc S v).gpr0 = S.gpr0 := rfl
@[simp] theorem writePc_gpr1 : (writePc S v).gpr1 = S.gpr1 := rfl
@[simp] theorem writePc_gpr2 : (writePc S v).gpr2 = S.gpr2 := rfl
@[simp] theorem writePc_pc : (writePc S v).pc = v := rfl
@[simp] theorem writePc_flags : (writePc S v).flags = S.flags := rfl
@[simp] theorem writePc_ip : (writePc S v).ip = S.ip := rfl
@[simp] theorem writePc_seg : (writePc S v).seg = S.seg := rfl
@[simp] theorem writePc_err : (writePc S v).err = S.err := rfl
end Registers

section Trace
variable (s : State) (r : TraceRecord)

@[simp] theorem emit_regs : (emit s r).regs = s.regs := rfl
@[simp] theorem emit_labels : (emit s r).labels = s.labels := rfl
@[simp] theorem emit_program : (emit s r).program = s.program := rfl
@[simp] theorem emit_k : (emit s r).k = s.k := rfl
@[simp] theorem emit_trace : (emit s r).trace = s.trace ++ [r] := rfl
@[simp] theorem emit_errCalls : (emit s r).errCalls = s.errCalls := rfl
end Trace

section Position
variable (s : State)

@[simp] theorem advance_regs : (advance s).regs = s.regs := rfl
@[simp] theorem advance_labels : (advance s).labels = s.labels := rfl
@[simp] theorem advance_program : (advance s).program = s.program := rfl
@[simp] theorem advance_k : (advance s).k = s.k + 1 := rfl
@[simp] theorem advance_trace : (advance s).trace = s.trace := rfl
@[simp] theorem advance_errCalls : (advance s).errCalls = s.errCalls := rfl
end Position

section Commit
variable (s : State) (S : Regs) (rs : List TraceRecord)

/-- Committing an Executor's answer sets the registers and appends the records in order. -/
theorem commit_eq : commit s (S, rs) = { s with regs := S, trace := s.trace ++ rs } := by
  unfold commit
  induction rs generalizing s with
  | nil => simp
  | cons r rs ih =>
    have h := ih (emit { s with regs := S } r)
    simp only [List.foldl_cons]
    rw [show (emit { s with regs := S } r) = { emit { s with regs := S } r with regs := S } from rfl,
      h]
    simp [emit]

@[simp] theorem commit_regs : (commit s (S, rs)).regs = S := by rw [commit_eq]
@[simp] theorem commit_labels : (commit s (S, rs)).labels = s.labels := by rw [commit_eq]
@[simp] theorem commit_program : (commit s (S, rs)).program = s.program := by rw [commit_eq]
@[simp] theorem commit_k : (commit s (S, rs)).k = s.k := by rw [commit_eq]
@[simp] theorem commit_trace : (commit s (S, rs)).trace = s.trace ++ rs := by rw [commit_eq]
@[simp] theorem commit_errCalls : (commit s (S, rs)).errCalls = s.errCalls := by rw [commit_eq]
end Commit

section ErrorCalls
variable (c r g d : Word) (s : State) (call : ErrCall) (rest : List ErrCall)

@[simp] theorem errUpdate_acc : (errUpdate c r g d s).regs.acc = s.regs.acc := rfl
@[simp] theorem errUpdate_gpr0 : (errUpdate c r g d s).regs.gpr0 = s.regs.gpr0 := rfl
@[simp] theorem errUpdate_gpr1 : (errUpdate c r g d s).regs.gpr1 = s.regs.gpr1 := rfl
@[simp] theorem errUpdate_gpr2 : (errUpdate c r g d s).regs.gpr2 = s.regs.gpr2 := rfl
@[simp] theorem errUpdate_pc : (errUpdate c r g d s).regs.pc = s.regs.pc := rfl
@[simp] theorem errUpdate_flags : (errUpdate c r g d s).regs.flags = s.regs.flags := rfl
@[simp] theorem errUpdate_ip : (errUpdate c r g d s).regs.ip = s.regs.ip := rfl
@[simp] theorem errUpdate_seg : (errUpdate c r g d s).regs.seg = s.regs.seg := rfl
@[simp] theorem errUpdate_err :
    (errUpdate c r g d s).regs.err = setErrorFlags c r g d s.regs.err := rfl
@[simp] theorem errUpdate_labels : (errUpdate c r g d s).labels = s.labels := rfl
@[simp] theorem errUpdate_program : (errUpdate c r g d s).program = s.program := rfl
@[simp] theorem errUpdate_k : (errUpdate c r g d s).k = s.k := rfl
@[simp] theorem errUpdate_trace : (errUpdate c r g d s).trace = s.trace := rfl
@[simp] theorem errUpdate_errCalls : (errUpdate c r g d s).errCalls = s.errCalls := rfl

@[simp] theorem applyErrCall_labels : (applyErrCall call rest s).labels = s.labels := rfl
@[simp] theorem applyErrCall_program : (applyErrCall call rest s).program = s.program := rfl
@[simp] theorem applyErrCall_k : (applyErrCall call rest s).k = s.k := rfl
@[simp] theorem applyErrCall_trace : (applyErrCall call rest s).trace = s.trace := rfl
@[simp] theorem applyErrCall_errCalls : (applyErrCall call rest s).errCalls = rest := rfl
@[simp] theorem applyErrCall_regs :
    (applyErrCall call rest s).regs =
      { s.regs with
        err := setErrorFlags call.cpu call.ram call.gpu call.disk s.regs.err } := rfl
end ErrorCalls

end Sys2Proof.Laws
end

