-- ==== Sys2Proof/Laws/Ops.lean ====
section
/-! SUPPORT. What each shared operation can do, said once. -/

namespace Sys2Proof.Laws

open Sys2Proof.Machine

/-- An entry found by address is in the table and has that address (R57). -/
theorem labelFindAddr_some {T : LabelTable} {a : Word} {e : LabelEntry}
    (h : labelFindAddr T a = some e) : e ∈ T ∧ e.addr = a :=
  ⟨List.mem_of_find?_eq_some h, by simpa using List.find?_some h⟩

/-- An entry read by position is in the table (R56). -/
theorem labelAt_mem {T : LabelTable} {i : Nat} {e : LabelEntry} (h : labelAt T i = some e) : e ∈ T :=
  List.mem_of_getElem? h

/-- The positions of the table are those below its length (R56). -/
theorem labelAt_none_iff {T : LabelTable} {i : Nat} : labelAt T i = none ↔ labelCount T ≤ i := by
  simp [labelAt, labelCount]

/-- The word at a position that `putWord` has written. -/
theorem progWord_putWord (P : ProgramBuffer) (k : Nat) (w : Word) :
    progWord (putWord P k w) k = some w := by
  unfold progWord
  induction k generalizing P with
  | zero => cases P <;> rfl
  | succ k ih => cases P <;> simpa [putWord] using ih _

/-- `putWord` leaves every word at another position of the buffer alone. -/
theorem progWord_putWord_ne (P : ProgramBuffer) (k j : Nat) (w : Word) (hj : j < P.length)
    (h : j ≠ k) : progWord (putWord P k w) j = progWord P j := by
  unfold progWord
  induction P generalizing k j with
  | nil => simp at hj
  | cons p P ih =>
    cases k with
    | zero => cases j with
      | zero => exact absurd rfl h
      | succ j => rfl
    | succ k => cases j with
      | zero => rfl
      | succ j => simpa [putWord] using ih k j (by simpa using hj) (by omega)

/-- A call of `set_error_flags` writes one indicator with its non-zero code, or none (R220). -/
theorem setErrorFlags_cases (c r g d : Word) (e : ErrIndicators) :
    (c ≠ 0 ∧ setErrorFlags c r g d e = { e with cpu := c }) ∨
    (r ≠ 0 ∧ setErrorFlags c r g d e = { e with ram := r }) ∨
    (g ≠ 0 ∧ setErrorFlags c r g d e = { e with gpu := g }) ∨
    (d ≠ 0 ∧ setErrorFlags c r g d e = { e with disk := d }) ∨
    setErrorFlags c r g d e = e := by
  unfold setErrorFlags
  split
  · exact .inl ⟨‹_›, rfl⟩
  · split
    · exact .inr (.inl ⟨‹_›, rfl⟩)
    · split
      · exact .inr (.inr (.inl ⟨‹_›, rfl⟩))
      · split
        · exact .inr (.inr (.inr (.inl ⟨‹_›, rfl⟩)))
        · exact .inr (.inr (.inr (.inr rfl)))

/-- `add_label` before a run, with a name within the bound, appends the entry (R60). -/
theorem addLabel_next {name : LabelName} (address : Nat) {s : State} (hk : s.k = 0)
    (hn : name.length ≤ Config.nameMax) :
    addLabel name address s =
      .next { s with labels := s.labels ++ [{ name := name, addr := trunc32 address }] } := by
  simp [addLabel, hk, hn]

/-- What JUMP can do (R150): the stored address of a position to `pc`, or one diagnostic. -/
theorem jumpArm_cases (i : Operand) (T : LabelTable) (S : Regs) :
    (∃ e, T[i.toNat]? = some e ∧ jumpArm i T S = ({ S with pc := e.addr }, [])) ∨
    (T.length ≤ i.toNat ∧ jumpArm i T S = (S, [.diag .invalidLabelOperand])) := by
  unfold jumpArm
  split
  · exact .inl ⟨_, ‹_›, rfl⟩
  · exact .inr ⟨labelAt_none_iff.1 ‹_›, rfl⟩

/-- What PRINT can do (R170): one value, or one diagnostic, and no register write. -/
theorem printArm_cases (r : Operand) (S : Regs) :
    (r.toNat = 0 ∧ printArm r S = (S, [.value .acc S.acc.toInt])) ∨
    (r.toNat = 1 ∧ printArm r S = (S, [.value .ax S.gpr0.toInt])) ∨
    (2 ≤ r.toNat ∧ printArm r S = (S, [.diag .unknownRegister])) := by
  unfold printArm registerSelector
  by_cases h0 : r.toNat = 0
  · simp [h0, signed32]
  · by_cases h1 : r.toNat = 1
    · simp [h1, signed32]
    · simp [h0, h1, diag]
      omega

/-- What the marker pass can do (R190): the name of an entry with the address, or nothing. -/
theorem markerPass_cases (a : Operand) (s : State) :
    (∃ e ∈ s.labels, e.addr = a.setWidth 32 ∧ markerPass a s = emit s (.label e.name)) ∨
    ((∀ e ∈ s.labels, e.addr ≠ a.setWidth 32) ∧ markerPass a s = s) := by
  unfold markerPass
  split
  · rename_i e h
    exact .inl ⟨e, (labelFindAddr_some h).1, (labelFindAddr_some h).2, rfl⟩
  · rename_i h
    exact .inr ⟨by simpa [labelFindAddr, labelAddress, zext32] using h, rfl⟩

end Sys2Proof.Laws
end

