-- ==== Sys2Proof/Laws/PerInstr.lean ====
section
/-! SUPPORT. The family RoundTrip: decoding the word of a well-formed instruction gives it back. -/

namespace Sys2Proof.Laws.RoundTrip

/-- Decoding the word of the instruction, if it is well-formed, gives it back (R84, R85). -/
def Statement (i : Instr) : Prop := i.wf = true → decode (encode i) = i

theorem load (v : Operand) : Statement (.load v) := fun _ => by
  simp [decode, encode, encodeFields, Instr.opcode, Instr.operand, instrOf]

theorem add (v : Operand) : Statement (.add v) := fun _ => by
  simp [decode, encode, encodeFields, Instr.opcode, Instr.operand, instrOf]

theorem sub (v : Operand) : Statement (.sub v) := fun _ => by
  simp [decode, encode, encodeFields, Instr.opcode, Instr.operand, instrOf]

theorem jump (i : Operand) : Statement (.jump i) := fun _ => by
  simp [decode, encode, encodeFields, Instr.opcode, Instr.operand, instrOf]

theorem print (r : Operand) : Statement (.print r) := fun _ => by
  simp [decode, encode, encodeFields, Instr.opcode, Instr.operand, instrOf]

theorem labelMarker (a : Operand) : Statement (.labelMarker a) := fun _ => by
  simp [decode, encode, encodeFields, Instr.opcode, Instr.operand, instrOf]

theorem unknown (opcode : Opcode) (operand : Operand) : Statement (.unknown opcode operand) :=
  fun h => by
    simp [decode, encode, encodeFields, Instr.opcode, Instr.operand, instrOf_unknown operand h]

end Sys2Proof.Laws.RoundTrip
end

