-- ==== Sys2Proof/Laws/Step.lean ====
section
/-! SUPPORT. What an instruction and a step can do, said once. -/

namespace Sys2Proof.Laws

open Sys2Proof.Machine

/-- Every next state of `exec` is one of these, one line per outcome of an instruction. -/
theorem exec_cases {i : Instr} {s t : State} (h : exec i s = .next t) :
    (∃ v, i = .load v ∧ t = { s with regs := { s.regs with acc := v.setWidth 32 } }) ∨
    (∃ v, i = .add v ∧ t = { s with regs := { s.regs with acc := s.regs.acc + v.setWidth 32 } }) ∨
    (∃ v, i = .sub v ∧ t = { s with regs := { s.regs with acc := s.regs.acc - v.setWidth 32 } }) ∨
    (∃ v e, i = .jump v ∧ s.labels[v.toNat]? = some e ∧
      t = { s with regs := { s.regs with pc := e.addr } }) ∨
    (∃ v, i = .jump v ∧ s.labels.length ≤ v.toNat ∧ t = emit s (.diag .invalidLabelOperand)) ∨
    (∃ v, i = .print v ∧ v.toNat = 0 ∧ t = emit s (.value .acc s.regs.acc.toInt)) ∨
    (∃ v, i = .print v ∧ v.toNat = 1 ∧ t = emit s (.value .ax s.regs.gpr0.toInt)) ∨
    (∃ v, i = .print v ∧ 2 ≤ v.toNat ∧ t = emit s (.diag .unknownRegister)) ∨
    (∃ a e, i = .labelMarker a ∧ e ∈ s.labels ∧ e.addr = a.setWidth 32 ∧
      t = emit s (.label e.name)) ∨
    (∃ a, i = .labelMarker a ∧ (∀ e ∈ s.labels, e.addr ≠ a.setWidth 32) ∧ t = s) ∨
    (∃ op v, i = .unknown op v ∧ t = emit s (.diag .unknownInstruction)) := by
  cases i with
  | load v => exact .inl ⟨v, rfl, by cases h; rfl⟩
  | add v => exact .inr (.inl ⟨v, rfl, by cases h; rfl⟩)
  | sub v => exact .inr (.inr (.inl ⟨v, rfl, by cases h; rfl⟩))
  | jump v =>
    cases h
    rcases jumpArm_cases v s.labels s.regs with ⟨e, he, hj⟩ | ⟨hl, hj⟩
    · exact .inr (.inr (.inr (.inl ⟨v, e, rfl, he, by rw [hj]; rfl⟩)))
    · exact .inr (.inr (.inr (.inr (.inl ⟨v, rfl, hl, by rw [hj]; rfl⟩))))
  | print v =>
    cases h
    rcases printArm_cases v s.regs with ⟨hv, hp⟩ | ⟨hv, hp⟩ | ⟨hv, hp⟩
    · exact .inr (.inr (.inr (.inr (.inr (.inl ⟨v, rfl, hv, by rw [hp]; rfl⟩)))))
    · exact .inr (.inr (.inr (.inr (.inr (.inr (.inl ⟨v, rfl, hv, by rw [hp]; rfl⟩))))))
    · exact .inr (.inr (.inr (.inr (.inr (.inr (.inr (.inl ⟨v, rfl, hv, by rw [hp]; rfl⟩)))))))
  | labelMarker a =>
    cases h
    rcases markerPass_cases a s with ⟨e, he, ha, hm⟩ | ⟨hn, hm⟩
    · exact .inr (.inr (.inr (.inr (.inr (.inr (.inr (.inr (.inl ⟨a, e, rfl, he, ha, hm⟩))))))))
    · exact .inr (.inr (.inr (.inr (.inr (.inr (.inr (.inr (.inr (.inl ⟨a, rfl, hn, hm⟩)))))))))
  | unknown op v =>
    cases h
    exact .inr (.inr (.inr (.inr (.inr (.inr (.inr (.inr (.inr (.inr ⟨op, v, rfl, rfl⟩)))))))))

/-- What a step of the sequencer does when it answers a next state (R108). -/
theorem seqStep_cases {s t : State} (h : seqStep s = .next t) :
    ∃ w u, progWord s.program s.k = some w ∧ exec (decode w) s = .next u ∧ t = advance u := by
  unfold seqStep at h
  split at h
  · cases h
  · rename_i w hw
    split at h
    · rename_i u hu
      cases h
      exact ⟨w, u, hw, hu, rfl⟩
    · cases h
    · cases h

/-- What a step of the machine does when it answers a next state: the host's next call, or a step of
the sequencer. -/
theorem step_cases {s t : State} (h : step s = .next t) :
    (∃ c rest, s.errCalls = c :: rest ∧ c.pos ≤ s.k ∧ t = applyErrCall c rest s) ∨
    ((∀ c ∈ s.errCalls.head?, s.k < c.pos) ∧ seqStep s = .next t) := by
  unfold step at h
  split at h
  · rename_i c rest hc
    split at h
    · rename_i hd
      cases h
      exact .inl ⟨c, rest, hc, by simpa [ErrCall.due] using hd, rfl⟩
    · rename_i hd
      refine .inr ⟨?_, h⟩
      rw [hc]
      simpa [ErrCall.due] using hd
  · rename_i hc
    exact .inr ⟨by simp [hc], h⟩

/-- With no call of the host to come, a step is a step of the sequencer. -/
theorem step_eq_seqStep {s : State} (h : ∀ c ∈ s.errCalls.head?, s.k < c.pos) :
    step s = seqStep s := by
  unfold step
  split
  · rename_i c rest hc
    rw [hc] at h
    simp [ErrCall.due, h c rfl]
  · rfl

end Sys2Proof.Laws
end

