-- ==== Sys2Proof/Laws/Run.lean ====
section
/-! SUPPORT. Runs of several steps. -/

namespace Sys2Proof.Laws

open Sys2Proof.Machine

/-- A run of one more step is the step and the run after it. -/
theorem run_succ_of_next {n : Nat} {s u : State} (h : step s = .next u) :
    core.run (n + 1) s = core.run n u := by
  simp only [Host.Core.run]
  rw [show core.step s = .next u from h]

/-- A run stops where its first step faults. -/
theorem run_succ_of_fault {n : Nat} {s : State} {r : Fault} (h : step s = .fault r) :
    core.run (n + 1) s = .fault r := by
  simp only [Host.Core.run]
  rw [show core.step s = .fault r from h]

/-- The first step of a run that answers a next state. -/
theorem run_succ_cases {n : Nat} {s t : State} (h : core.run (n + 1) s = .next t) :
    ∃ u : State, step s = .next u ∧ core.run n u = .next t := by
  simp only [Host.Core.run] at h
  split at h
  · rename_i u hu
    exact ⟨u, hu, h⟩
  · cases h
  · cases h

/-- A run can be cut where it answers a next state. -/
theorem run_add {m : Nat} (n : Nat) {s t : State} (h : core.run m s = .next t) :
    core.run (m + n) s = core.run n t := by
  induction m generalizing s with
  | zero =>
    cases h
    simp
  | succ m ih =>
    obtain ⟨u, hu, h'⟩ := run_succ_cases h
    rw [show m + 1 + n = m + n + 1 by omega, run_succ_of_next hu, ih h']

/-- What every step keeps, every run keeps. -/
theorem run_keeps {P : State → Prop} (hstep : ∀ s t, P s → step s = .next t → P t) {n : Nat}
    {s t : State} (hs : P s) (h : core.run n s = .next t) : P t := by
  induction n generalizing s with
  | zero =>
    cases h
    exact hs
  | succ n ih =>
    obtain ⟨u, hu, h'⟩ := run_succ_cases h
    exact ih (hstep s u hs hu) h'

end Sys2Proof.Laws
end

