-- ==== Sys2Proof/Tests/Slice0.lean ====
section
/-! SUPPORT. The model's own tests, and a witness of the hypotheses of every statement that has any. The
expected results are those of spec/95_test_vectors.md and of the corner cases in the rules. -/

namespace Sys2Proof.Tests

open Sys2Proof.Machine Sys2Proof.Safety Sys2Proof.Laws

/-! ### Well-formedness: the one check, on ill-formed terms -/

theorem test_wf_refuses_defined_opcodes :
    (Instr.unknown 0x01#8 0).wf = false ∧ (Instr.unknown 0x02#8 0).wf = false ∧
    (Instr.unknown 0x03#8 0).wf = false ∧ (Instr.unknown 0x04#8 0).wf = false ∧
    (Instr.unknown 0x05#8 0).wf = false ∧ (Instr.unknown 0x06#8 0).wf = false := by decide

theorem test_wf_admits_unknown_boundaries :
    (Instr.unknown 0x00#8 0).wf = true ∧ (Instr.unknown 0x07#8 0).wf = true ∧
    (Instr.unknown 0xFF#8 0).wf = true := by decide

/-! ### Decode: one word of each row, bit by bit from the patterns of R84 -/

theorem test_decode_load : decode 0b00000001_10000000_00000000_00000001#32 = .load 0x800001#24 := by
  decide
theorem test_decode_add : decode 0b00000010_11111111_11111111_11111111#32 = .add 0xFFFFFF#24 := by
  decide
theorem test_decode_sub : decode 0b00000011_00000000_00000000_00000011#32 = .sub 3#24 := by decide
theorem test_decode_jump : decode 0b00000100_00000000_00000000_00000001#32 = .jump 1#24 := by decide
theorem test_decode_print : decode 0b00000101_11111111_11111111_11111111#32 = .print 0xFFFFFF#24 := by
  decide
theorem test_decode_labelMarker :
    decode 0b00000110_10101010_10101010_10101010#32 = .labelMarker 0xAAAAAA#24 := by decide
theorem test_decode_unknown :
    decode 0b00000000_00000000_00000000_00000000#32 = .unknown 0x00#8 0#24 ∧
    decode 0b00000111_00000000_00000000_00000001#32 = .unknown 0x07#8 1#24 ∧
    decode 0b11111111_00010010_00110100_01010110#32 = .unknown 0xFF#8 0x123456#24 := by decide
theorem test_encode_words :
    encode (.load 10) = 0x0100000A#32 ∧ encode (.jump 1) = 0x04000001#32 ∧
    encode (.labelMarker 0xAAAAAA) = 0x06AAAAAA#32 ∧
    encode (.unknown 0xFF 0x123456) = 0xFF123456#32 := by decide
theorem test_decodeTableWord :
    decodeTableWord 32 0x0300000A = some (.sub 10) ∧ decodeTableWord 40 0 = none := by decide

/-- The bytes of `LOAD 10` in the two orders of `LOADER_BYTE_ORDER` (D16), and a stream that ends early. -/
theorem test_decodeBytes :
    decodeBytes .little [0x0A, 0, 0, 0x01] = .ok [.load 10] ∧
    decodeBytes .big [0x01, 0, 0, 0x0A] = .ok [.load 10] ∧
    decodeBytes .big [0x01, 0, 0] = .error .truncatedWord := ⟨rfl, rfl, rfl⟩

/-! ### The instructions -/

/-- A state at position 0 with the accumulator, the Label Table and the program buffer given. -/
def start (acc : Word) (labels : LabelTable) (program : ProgramBuffer) : State :=
  { State.reset with regs := { Regs.zero with acc := acc }, labels := labels, program := program }

/-- The next state of an outcome. -/
def nextOf (o : Host.Outcome State Fault Refusal) : Option State :=
  match o with
  | .next t => some t
  | .fault _ => none
  | .refused _ => none

/-- The registers after one step that runs the word, and the records it emits. -/
def after (acc : Word) (labels : LabelTable) (w : Word) : Option (Word × Word × List TraceRecord) :=
  (nextOf (step (start acc labels [w]))).map fun t => (t.regs.acc, t.regs.pc, t.trace)

/-- A-2, A-3: the operand is zero-extended, never sign-extended. -/
theorem test_load :
    after 5 [] 0x01FFFFFF = some (0x00FFFFFF, 0, []) ∧
    after 5 [] 0x01800000 = some (0x00800000, 0, []) := by decide
/-- A-6, A-9: the sum wraps. -/
theorem test_add_wraps :
    after 0x7FFFFFFF [] 0x02000001 = some (0x80000000, 0, []) ∧
    after 0x7FFFFF80 [] 0x02FFFFFF = some (0x80FFFF7F, 0, []) := by decide
/-- A-8: a sum past the top of the unsigned range. -/
theorem test_add_carry : after 0xFFFFFFFF [] 0x02FFFFFF = some (0x00FFFFFE, 0, []) := by decide
/-- A-12, A-13: the difference wraps. -/
theorem test_sub_wraps :
    after 0 [] 0x03FFFFFF = some (0xFF000001, 0, []) ∧
    after 0x80000000 [] 0x03000001 = some (0x7FFFFFFF, 0, []) := by decide
/-- A-10: the operands are not swapped. -/
theorem test_sub : after 15 [] 0x03000003 = some (12, 0, []) := by decide

/-- The labels of the JUMP vectors. -/
def jumpLabels : LabelTable := [⟨['a'], 7⟩, ⟨['b'], 3⟩, ⟨['c'], 0x12345678⟩]

/-- J-2, J-3: by position, and the whole stored address. -/
theorem test_jump_in_range :
    after 0 jumpLabels 0x04000001 = some (0, 3, []) ∧
    after 0 jumpLabels 0x04000002 = some (0, 0x12345678, []) := by decide
/-- J-4, J-5, J-6: the operand `L`, the largest operand, and the empty table. -/
theorem test_jump_out_of_range :
    after 0 jumpLabels 0x04000003 = some (0, 0, [.diag .invalidLabelOperand]) ∧
    after 0 jumpLabels 0x04FFFFFF = some (0, 0, [.diag .invalidLabelOperand]) ∧
    after 0 [] 0x04000000 = some (0, 0, [.diag .invalidLabelOperand]) := by decide

/-- P-1, P-2, P-3: the accumulator is printed signed. -/
theorem test_print_acc :
    after 18 [] 0x05000000 = some (18, 0, [.value .acc 18]) ∧
    after 0xFFFFFFFF [] 0x05000000 = some (0xFFFFFFFF, 0, [.value .acc (-1)]) ∧
    after 0x80000000 [] 0x05000000 = some (0x80000000, 0, [.value .acc (-2147483648)]) := by decide
/-- P-4, P-5, P-6: `gpr[0]`, and the operands that select no register. -/
theorem test_print_other :
    after 7 [] 0x05000001 = some (7, 0, [.value .ax 0]) ∧
    after 7 [] 0x05000002 = some (7, 0, [.diag .unknownRegister]) ∧
    after 7 [] 0x05FFFFFF = some (7, 0, [.diag .unknownRegister]) := by decide

/-- The labels of the LABEL-MARKER vectors. -/
def markerLabels : LabelTable :=
  [⟨['x'], 0x10⟩, ⟨['y'], 0x10⟩, ⟨['z'], 0xFFFFFF⟩, ⟨['w'], 0x01000000⟩, ⟨['x'], 0x20⟩]

/-- M-1, M-2, M-3: the first match, and a name that stands twice. -/
theorem test_marker_match :
    after 0 markerLabels 0x06000010 = some (0, 0, [.label ['x']]) ∧
    after 0 markerLabels 0x06FFFFFF = some (0, 0, [.label ['z']]) ∧
    after 0 markerLabels 0x06000020 = some (0, 0, [.label ['x']]) := by decide
/-- M-4, M-5, M-7: no match, the empty table, and a direct call of the Executor. -/
theorem test_marker_no_match :
    after 0 markerLabels 0x06000000 = some (0, 0, []) ∧ after 0 [] 0x06000030 = some (0, 0, []) ∧
    execute Regs.zero 0x06#8 0xAAAAAA#24 markerLabels = (Regs.zero, []) := by decide

/-- U-1 to U-4. -/
theorem test_unknown :
    after 9 jumpLabels 0x00000000 = some (9, 0, [.diag .unknownInstruction]) ∧
    after 9 jumpLabels 0x07000000 = some (9, 0, [.diag .unknownInstruction]) ∧
    after 9 jumpLabels 0xFF123456 = some (9, 0, [.diag .unknownInstruction]) ∧
    after 9 jumpLabels 0xFFFFFFFF = some (9, 0, [.diag .unknownInstruction]) := by decide

/-! ### The step, the ports and the assembler -/

/-- A step goes from position 0 to position 1 after a JUMP, and the word placed for the fetch runs. -/
theorem test_step_position :
    (nextOf (step (start 0 jumpLabels [0x04000002]))).map State.k = some 1 ∧
    (nextOf (step (State.reset.withFetchWord 32 0x0100000A))).map (fun t => t.regs.acc) = some 10 := by
  decide

/-- The empty program (P5, D20): no step. -/
theorem test_empty_program : nextOf (step (start 0 jumpLabels [])) = none := by decide

/-- P6: a call that comes before position 0 is applied before the word there. -/
theorem test_step_host_call :
    (nextOf (step { start 0 [] [0x01000005] with errCalls := [⟨0, 0, 0, 9, 4⟩, ⟨1, 0, 0, 0, 4⟩] })).map
      (fun t => (t.k, t.regs.err, t.errCalls)) =
    some (0, ⟨0, 0, 9, 0⟩, [⟨1, 0, 0, 0, 4⟩]) := by decide

/-- The indicators before each of the sixteen calls. -/
def priorErr : ErrIndicators := ⟨0xC1, 0xA1, 0x61, 0xD1⟩

/-- The combinations of R222 with no CPU code. -/
theorem test_set_error_flags_without_cpu :
    setErrorFlags 0 0 0 0 priorErr = ⟨0xC1, 0xA1, 0x61, 0xD1⟩ ∧
    setErrorFlags 0 0 0 4 priorErr = ⟨0xC1, 0xA1, 0x61, 0x4⟩ ∧
    setErrorFlags 0 0 3 0 priorErr = ⟨0xC1, 0xA1, 0x3, 0xD1⟩ ∧
    setErrorFlags 0 0 3 4 priorErr = ⟨0xC1, 0xA1, 0x3, 0xD1⟩ ∧
    setErrorFlags 0 2 0 0 priorErr = ⟨0xC1, 0x2, 0x61, 0xD1⟩ ∧
    setErrorFlags 0 2 0 4 priorErr = ⟨0xC1, 0x2, 0x61, 0xD1⟩ ∧
    setErrorFlags 0 2 3 0 priorErr = ⟨0xC1, 0x2, 0x61, 0xD1⟩ ∧
    setErrorFlags 0 2 3 4 priorErr = ⟨0xC1, 0x2, 0x61, 0xD1⟩ := by decide

/-- The combinations of R222 with a CPU code. -/
theorem test_set_error_flags_with_cpu :
    setErrorFlags 1 0 0 0 priorErr = ⟨0x1, 0xA1, 0x61, 0xD1⟩ ∧
    setErrorFlags 1 0 0 4 priorErr = ⟨0x1, 0xA1, 0x61, 0xD1⟩ ∧
    setErrorFlags 1 0 3 0 priorErr = ⟨0x1, 0xA1, 0x61, 0xD1⟩ ∧
    setErrorFlags 1 0 3 4 priorErr = ⟨0x1, 0xA1, 0x61, 0xD1⟩ ∧
    setErrorFlags 1 2 0 0 priorErr = ⟨0x1, 0xA1, 0x61, 0xD1⟩ ∧
    setErrorFlags 1 2 0 4 priorErr = ⟨0x1, 0xA1, 0x61, 0xD1⟩ ∧
    setErrorFlags 1 2 3 0 priorErr = ⟨0x1, 0xA1, 0x61, 0xD1⟩ ∧
    setErrorFlags 1 2 3 4 priorErr = ⟨0x1, 0xA1, 0x61, 0xD1⟩ := by decide

/-- The spellings of the §8 scenario (program P1), and lines R90 refuses. -/
theorem test_assemble :
    assembleAll ["LOAD 10".toList, "JUMP 1".toList, "PRINT reg1".toList, "LABEL@0xAAAAAA".toList,
      "PRINT acc".toList, ".word 0".toList] =
      .ok [0x0100000A, 0x04000001, 0x05000001, 0x06AAAAAA, 0x05000000, 0] ∧
    assemble "ADD 16777216".toList = .error .tooWide ∧
    assemble "load 1".toList = .error .badLine ∧ assemble "SUB 0x".toList = .error .badNumber :=
  ⟨rfl, rfl, rfl, rfl⟩

theorem test_render :
    (TraceRecord.value .acc (-1)).render = "acc -1".toList ∧
    (TraceRecord.label "loop".toList).render = "loop".toList ∧
    DiagKind.code .unknownRegister = 3 := by decide

/-! ### Witnesses: a concrete state and operands that meet the hypotheses of each statement -/

/-- A run under way: one word processed, one word and one host call to come. -/
def underWay : State :=
  { start 5 jumpLabels [0x01000005, 0x04000002] with k := 1, errCalls := [⟨1, 0, 0, 9, 4⟩] }

theorem witness_InitZeroesEveryRegister : (start 5 jumpLabels [0]).k = 0 := rfl

theorem witness_InitKeepsTheInputs :
    (∃ t u v, initPort (start 5 jumpLabels [0]) = .next t ∧ addLabel [] 7 t = .next u ∧
      addLabel [] 7 (start 5 jumpLabels [0]) = .next v) ∧
    (∃ t u v, initPort (start 5 jumpLabels [0]) = .next t ∧ loadProgram [1] t = .next u ∧
      loadProgram [1] (start 5 jumpLabels [0]) = .next v) ∧
    underWay.k ≠ 0 := by
  refine ⟨⟨_, _, _, rfl, addLabel_next 7 rfl (Nat.zero_le _), addLabel_next 7 rfl (Nat.zero_le _)⟩,
    ⟨_, _, _, rfl, rfl, rfl⟩, by decide⟩

theorem witness_AddLabelAppends :
    State.reset.k = 0 ∧ ([] : LabelName).length ≤ Config.nameMax ∧
    Config.nameMax < (List.replicate (Config.nameMax + 1) 'a').length ∧ underWay.k ≠ 0 :=
  ⟨rfl, Nat.zero_le _, by simp, by decide⟩

theorem witness_ProgramIsSuppliedBeforeTheRun : State.reset.k = 0 ∧ underWay.k ≠ 0 := by decide

/-- One call for each clause, the last code alone and all four zero among them. -/
theorem witness_SetErrorFlagsPriority :
    (1 : Word) ≠ 0 ∧ ((0 : Word) = 0 ∧ (0x80000000 : Word) ≠ 0) := by decide

theorem witness_SetErrorFlagsChangesAtMostOne :
    setErrorFlags 0 0 3 4 priorErr = ⟨0xC1, 0xA1, 3, 0xD1⟩ ∧ priorErr.cpu ≠ 0 ∧ priorErr.ram ≠ 0 ∧
    priorErr.gpu ≠ 0 ∧ priorErr.disk ≠ 0 := by decide

theorem witness_StateIsReadAtTheEnd :
    (start 5 [] []).k = (start 5 [] []).program.length ∧ underWay.k < underWay.program.length := by
  decide

/-- A state that meets the invariant with a jump taken, a record of each kind and two words to come. -/
def lived : State :=
  { regs := { Regs.zero with acc := 9, pc := 7 }
    labels := [⟨[], 7⟩]
    program := [0x06000007, 0x05000000, 0x05000001, 0x04000000, 0x01000005]
    k := 4
    trace := [.label [], .value .acc 9, .value .ax 0]
    errCalls := [] }

theorem lived_inv : Inv lived where
  gpr0 := rfl
  gpr1 := rfl
  gpr2 := rfl
  flags := rfl
  ip := rfl
  seg := rfl
  pc := .inr ⟨⟨[], 7⟩, by decide, rfl⟩
  position := by decide
  records := by decide
  axValues := by simp [lived]
  accValues := by simp [lived]
  labelRecords := by simp [lived]
  names := by simp [lived]

/-- A state at position 0 that meets the invariant. -/
theorem start_inv : Inv (start 5 [] [0]) where
  gpr0 := rfl
  gpr1 := rfl
  gpr2 := rfl
  flags := rfl
  ip := rfl
  seg := rfl
  pc := .inl rfl
  position := by decide
  records := by decide
  axValues := by simp [start, State.reset]
  accValues := by simp [start, State.reset]
  labelRecords := by simp [start, State.reset]
  names := by simp [start]

theorem witness_PortsKeepTheInvariant :
    Inv (start 5 [] [0]) ∧ (∃ t, initPort (start 5 [] [0]) = .next t) ∧
    (∃ t, addLabel [] 7 (start 5 [] [0]) = .next t) ∧
    (∃ t, loadProgram [] (start 5 [] [0]) = .next t) ∧
    ∃ t, errUpdate 0 0 0 4 (start 5 [] [0]) = t :=
  ⟨start_inv, ⟨_, rfl⟩, ⟨_, addLabel_next _ rfl (Nat.zero_le _)⟩, ⟨_, rfl⟩, ⟨_, rfl⟩⟩

theorem witness_OpcodeMap :
    (0x00#8 = 0x00#8 ∨ 0x07#8 ≤ 0x00#8) ∧ (0x07#8 = 0x00#8 ∨ 0x07#8 ≤ 0x07#8) ∧
    (0xFF#8 = 0x00#8 ∨ 0x07#8 ≤ 0xFF#8) := by decide

theorem witness_DecodeOfEncode :
    (Instr.load 0xFFFFFF).wf = true ∧ (Instr.unknown 0x07 1).wf = true := by decide

theorem witness_AssemblerRefusesWideImmediates : 0xFFFFFF ≤ 0xFFFFFF ∧ 0xFFFFFF < 0x1000000 := by
  decide

theorem witness_LoadGivesTheUnsignedOperands :
    (∃ t, exec (.load 0x800000) (start 5 [] []) = .next t) ∧ 16777215 ≤ 16777215 :=
  ⟨⟨_, rfl⟩, le_refl _⟩

/-- Both sides of the two boundaries: the largest and the smallest signed value. -/
theorem witness_SignedSumAndDifference :
    (∃ t, exec (.add 1) (start 0x7FFFFFFE [] []) = .next t) ∧
    (start 0x7FFFFFFE [] []).regs.acc.toInt + (1#24).toNat ≤ 2 ^ 31 - 1 ∧
    2 ^ 31 - 1 < (start 0x7FFFFFFF [] []).regs.acc.toInt + (1#24).toNat ∧
    (∃ t, exec (.sub 1) (start 0x80000001 [] []) = .next t) ∧
    -2 ^ 31 ≤ (start 0x80000001 [] []).regs.acc.toInt - (1#24).toNat ∧
    (start 0x80000000 [] []).regs.acc.toInt - (1#24).toNat < -2 ^ 31 :=
  ⟨⟨_, rfl⟩, by decide, by decide, ⟨_, rfl⟩, by decide, by decide⟩

/-- The last position of a table, and the operand just past it. -/
theorem witness_JumpResult :
    (2#24).toNat < (start 0 jumpLabels []).labels.length ∧
    (start 0 jumpLabels []).labels.length ≤ (3#24).toNat := by decide

/-- Two tables that agree at position 1 only, and two that both end before position 3. -/
theorem witness_JumpReadsOnePosition :
    (start 0 jumpLabels []).labels[(1#24).toNat]?.map LabelEntry.addr =
      ([⟨['q'], 8⟩, ⟨['r'], 3⟩] : LabelTable)[(1#24).toNat]?.map LabelEntry.addr ∧
    (start 0 jumpLabels []).labels[(3#24).toNat]?.map LabelEntry.addr =
      ([] : LabelTable)[(3#24).toNat]?.map LabelEntry.addr ∧
    (∃ t, exec (.jump 1) (start 0 jumpLabels []) = .next t) ∧
    (∃ t, exec (.jump 3) (start 0 jumpLabels []) = .next t) :=
  ⟨by decide, by decide, ⟨_, rfl⟩, ⟨_, rfl⟩⟩

theorem witness_AddedLabelIsReachedByItsPosition :
    (∃ t, addLabel [] 0x12345678 (start 0 jumpLabels []) = .next t) ∧
    (3#24).toNat = (start 0 jumpLabels []).labels.length :=
  ⟨⟨_, addLabel_next _ rfl (Nat.zero_le _)⟩, rfl⟩

theorem witness_PrintResult : (0#24 = 0#24) ∧ (1#24 = 1#24) ∧ 2 ≤ (2#24).toNat := by decide

theorem witness_PrintAxEmitsZero : Inv lived := lived_inv

/-- A first match that is not at position 0, and a table without the address. -/
theorem witness_MarkerResult :
    (start 0 markerLabels []).labels[4]? = some ⟨['x'], 0x20⟩ ∧
    (⟨['x'], 0x20⟩ : LabelEntry).addr = (0x20#24).setWidth 32 ∧
    (∀ q e', q < 4 → (start 0 markerLabels []).labels[q]? = some e' →
      e'.addr ≠ (0x20#24).setWidth 32) ∧
    ∀ e ∈ (start 0 markerLabels []).labels, e.addr ≠ (0#24).setWidth 32 := by
  refine ⟨rfl, by decide, ?_, by decide⟩
  intro q e' hq h
  interval_cases q <;> cases h <;> decide

theorem witness_MarkerIgnoresPositions :
    (start 0 markerLabels []).labels.filter (fun e => e.addr == (0x10#24).setWidth 32) =
      ([⟨['z'], 1⟩, ⟨['x'], 0x10⟩, ⟨['y'], 0x10⟩] : LabelTable).filter
        (fun e => e.addr == (0x10#24).setWidth 32) ∧
    ∃ t, exec (.labelMarker 0x10) (start 0 markerLabels []) = .next t :=
  ⟨by decide, ⟨_, rfl⟩⟩

theorem witness_WideAddressesAreNeverMatched :
    ∃ t, exec (.labelMarker 0) (start 0 markerLabels []) = .next t := ⟨_, rfl⟩

theorem witness_UnknownResult :
    0x07#8 ≠ 0x01#8 ∧ 0x07#8 ≠ 0x02#8 ∧ 0x07#8 ≠ 0x03#8 ∧ 0x07#8 ≠ 0x04#8 ∧ 0x07#8 ≠ 0x05#8 ∧
    0x07#8 ≠ 0x06#8 := by decide

theorem witness_UnknownSpace : (0x07#8 = 0x00#8 ∨ 0x07#8 ≤ 0x07#8) ∧ ¬(0x06#8 = 0x00#8 ∨ 0x07#8 ≤ 0x06#8) := by
  decide

theorem witness_OnlyJumpReadsTheTable : 0x05#8 ≠ 0x04#8 := by decide

/-- A LOAD and a JUMP, whose frames differ. -/
theorem witness_ExecFrame :
    (∃ t, exec (.load 7) underWay = .next t) ∧ (∀ v : Operand, Instr.load 7 ≠ .jump v) ∧
    (∃ t, exec (.jump 1) underWay = .next t) ∧
    ∀ v : Operand, Instr.jump 1 ≠ .load v ∧ Instr.jump 1 ≠ .add v ∧ Instr.jump 1 ≠ .sub v :=
  ⟨⟨_, rfl⟩, by simp, ⟨_, rfl⟩, by simp⟩

theorem witness_DiagnosticsChangeNoRegister :
    ∃ t, seqStep (start 0 jumpLabels [0x04000003]) = .next t ∧
      t.trace = (start 0 jumpLabels [0x04000003]).trace ++ [.diag .invalidLabelOperand] :=
  ⟨_, rfl, by decide⟩

theorem witness_DiagnosticCauses : ∃ t, exec (.print 2) underWay = .next t := ⟨_, rfl⟩

theorem witness_ErrorIndicatorsArePassive : ∃ t, exec (.jump 1) underWay = .next t := ⟨_, rfl⟩

/-- A marker word, a word for the Executor, and the end of the buffer. -/
theorem witness_SequencerStep :
    (start 0 markerLabels [0x06000010]).program[0]? = some 0x06000010#32 ∧
    opcodeField 0x06000010#32 = 0x06#8 ∧
    (start 0 jumpLabels [0x04000001]).program[0]? = some 0x04000001#32 ∧
    opcodeField 0x04000001#32 ≠ 0x06#8 ∧
    execute Regs.zero 0x04#8 1#24 jumpLabels = ({ Regs.zero with pc := 3 }, []) ∧
    (start 0 [] []).program.length ≤ (start 0 [] []).k := by decide

/-- A state with a call still to come, but not now. -/
def callLater : State := { start 5 jumpLabels [0x02000001, 0] with errCalls := [⟨1, 1, 0, 0, 0⟩] }

theorem witness_StepRunsTheDecodedInstruction :
    (∀ c ∈ callLater.errCalls.head?, callLater.k < c.pos) ∧
    callLater.program[callLater.k]? = some 0x02000001#32 ∧
    ∃ t, exec (decode 0x02000001#32) callLater = .next t :=
  ⟨by simp [callLater, start, State.reset], rfl, ⟨_, rfl⟩⟩

theorem witness_StepMakesTheHostCall :
    underWay.errCalls = [⟨1, 0, 0, 9, 4⟩] ∧ (⟨1, 0, 0, 9, 4⟩ : ErrCall).pos ≤ underWay.k := by decide

theorem witness_NoStepAfterTheEnd : Ended (start 5 jumpLabels []) := ⟨rfl, rfl⟩

theorem witness_PositionAdvancesByOne :
    (∃ t, seqStep (start 0 jumpLabels [0x04000001]) = .next t) ∧
    ∃ t, exec (.jump 1) underWay = .next t := ⟨⟨_, rfl⟩, ⟨_, rfl⟩⟩

theorem witness_JumpDoesNotRedirect :
    (start 0 jumpLabels [0x04000000, 0x05000000]).program[0]? = some (0x04#8 ++ 0#24) ∧
    (start 0 jumpLabels [0x04000000, 0x05000000]).program[0 + 1]? = some 0x05000000#32 := by decide

theorem witness_StepKeepsTheInvariant : Inv lived ∧ ∃ t, step lived = .next t :=
  ⟨lived_inv, ⟨_, rfl⟩⟩

theorem witness_InputsAreConstant : ∃ t, core.run 2 underWay = .next t := ⟨_, rfl⟩

theorem witness_TraceOnlyGrows : ∃ t, core.run 1 lived = .next t := ⟨_, rfl⟩

theorem witness_RunTakesExactlyNSteps :
    lived.errCalls = [] ∧ lived.k ≤ lived.program.length ∧ 1 ≤ lived.program.length - lived.k ∧
    lived.program.length - lived.k < 2 := by decide

theorem witness_AccumulatorIsTheFold :
    lived.errCalls = [] ∧ lived.k + 1 ≤ lived.program.length := by decide

/-- `LOAD 10`, `PRINT acc`, `SUB 3` (the fold of W1 with a word between). -/
theorem witness_LoadThenSumsIsTheFold :
    let s := start 0 [] [0x0100000A, 0x05000000, 0x03000003]
    s.errCalls = [] ∧ s.k + (2 + 1) ≤ s.program.length ∧
    upcoming s 3 = [.load 10, .print 0, .sub 3] ∧
    (∀ i ∈ [Instr.print 0, .sub 3], isLoad i = false) ∧
    FitsSigned32 ((10#24).toNat + ([Instr.print 0, .sub 3].map accDelta).sum) :=
  ⟨rfl, by decide, by decide, by decide, by unfold FitsSigned32; decide⟩

/-- A run with a host call in it. -/
theorem witness_ErrorCallsChangeNothingElse : ∃ t, core.run 2 underWay = .next t := ⟨_, rfl⟩

theorem witness_UnreadFieldsNeverMatter : ∃ t, core.run 2 underWay = .next t := ⟨_, rfl⟩

theorem witness_UnknownWordsOnlyEmitDiagnostics :
    let s := start 0 jumpLabels [0x07000000, 0xFFFFFFFF, 0]
    s.errCalls = [] ∧ s.k + 3 ≤ s.program.length ∧
    ∀ w ∈ (s.program.drop s.k).take 3, Opcode.isUnknown (opcodeField w) = true := by
  refine ⟨rfl, by decide, ?_⟩
  rintro w (_ | ⟨_, _ | ⟨_, _ | ⟨_, h⟩⟩⟩)
  · rfl
  · rfl
  · rfl
  · cases h

end Sys2Proof.Tests
end

section
/-! The encoding (spec/30_encoding.md): the fields of a word, the opcode map, and the unknown space. -/

namespace Sys2Proof.Proofs

open Sys2Proof.Machine Sys2Proof.Laws

/-- A word built from an opcode and an operand decodes by the opcode map of R84 alone. -/
@[simp] theorem decode_append (op : Opcode) (v : Operand) : decode (op ++ v) = instrOf op v := by
  rw [decode, opcodeField_append, operandField_append]

/-- The unknown space in R86's own words. -/
theorem isUnknown_iff (op : Opcode) : Opcode.isUnknown op = true ↔ op = 0x00#8 ∨ 0x07#8 ≤ op := by
  rw [Opcode.isUnknown, Bool.or_eq_true, beq_iff_eq, decide_eq_true_eq, BitVec.le_def,
    ← BitVec.toNat_inj]
  rfl

/-- Outside the unknown space no opcode selects the default arm (R84, R86). -/
theorem isUnknown_of_instrOf_eq_unknown {op op' : Opcode} {v v' : Operand}
    (h : instrOf op v = .unknown op' v') : Opcode.isUnknown op = true := by
  rcases instrOf_cases op v with
    ⟨_, hi⟩ | ⟨_, hi⟩ | ⟨_, hi⟩ | ⟨_, hi⟩ | ⟨_, hi⟩ | ⟨_, hi⟩ | ⟨hu, _⟩
  case inr.inr.inr.inr.inr.inr => exact hu
  all_goals cases hi.symm.trans h

/-- R194: an unknown instruction emits its one diagnostic and does nothing else. -/
theorem exec_unknown (op : Opcode) (v : Operand) (s : State) :
    exec (.unknown op v) s = .next (emit s (.diag .unknownInstruction)) := rfl

/-- Settles O33: the opcode map gives the default arm on the unknown space (`instrOf_unknown`) and nowhere
else (`isUnknown_of_instrOf_eq_unknown`). -/
theorem unknownSpace : Obligations.UnknownSpace := by
  intro op v s
  rw [decode_append, ← isUnknown_iff]
  refine ⟨fun h => ?_, fun h => ⟨op, v, instrOf_unknown v h⟩, ?_⟩
  · rw [instrOf_unknown v h, exec_unknown, emit]
  · rintro ⟨op', v', h⟩
    exact isUnknown_of_instrOf_eq_unknown h

/-- Settles O10: a shift by 24 and a mask of low bits are the quotient and the remainder by `2 ^ 24`, and
the quotient of a 32-bit word fits in 8 bits. -/
theorem decodeFormula : Obligations.DecodeFormula := by
  intro w
  have hop : w.toNat / 2 ^ 24 < 2 ^ 8 := by have := w.isLt; omega
  constructor
  · calc (opcodeField w).toNat = w.toNat / 2 ^ 24 := opcodeField_toNat w
      _ = w.toNat / 2 ^ 24 % 2 ^ 8 := (Nat.mod_eq_of_lt hop).symm
      _ = (w.toNat >>> 24) &&& (2 ^ 8 - 1) := by
        rw [Nat.and_two_pow_sub_one_eq_mod, Nat.shiftRight_eq_div_pow]
  · calc (operandField w).toNat = w.toNat % 2 ^ 24 := operandField_toNat w
      _ = w.toNat &&& (2 ^ 24 - 1) := (Nat.and_two_pow_sub_one_eq_mod _ _).symm

/-- Settles O11: after `decode_append` the six opcodes are the first six arms of the map, and the unknown
space is its default arm. -/
theorem opcodeMap : Obligations.OpcodeMap := by
  intro v
  simp only [decode_append]
  exact ⟨rfl, rfl, rfl, rfl, rfl, rfl, fun op h => instrOf_unknown v ((isUnknown_iff op).mpr h)⟩

end Sys2Proof.Proofs
end

section
/-! Dispatch (spec/40_dispatch.md): the Executor, and one step of the sequencer. -/

namespace Sys2Proof.Proofs

open Sys2Proof.Machine Sys2Proof.Laws

/-- Every arm of `exec` is a `.next` (R107). -/
theorem exec_answers (i : Instr) (s : State) : ∃ t, exec i s = .next t := by
  cases i <;> exact ⟨_, rfl⟩

/-- An opcode of the unknown space selects the Executor's default arm (R86, R106). -/
theorem execute_unknown {op : Opcode} (S : Regs) (v : Operand) (T : LabelTable)
    (h : Opcode.isUnknown op = true) : execute S op v T = unknownArm op v S := by
  unfold execute
  split
  case h_7 => rfl
  all_goals exact absurd h (by decide)

theorem jumpArm_records_le_one (i : Operand) (T : LabelTable) (S : Regs) :
    (jumpArm i T S).2.length ≤ 1 := by
  rcases jumpArm_cases i T S with ⟨_, _, h⟩ | ⟨_, h⟩ <;> simp [h]

theorem printArm_records_le_one (r : Operand) (S : Regs) : (printArm r S).2.length ≤ 1 := by
  rcases printArm_cases r S with ⟨_, h⟩ | ⟨_, h⟩ | ⟨_, h⟩ <;> simp [h]

/-- The Executor emits at most one record (R106): the accumulator and marker arms none, the default arm
one, JUMP and PRINT by their cases. -/
theorem execute_records_le_one (S : Regs) (op : Opcode) (v : Operand) (T : LabelTable) :
    (execute S op v T).2.length ≤ 1 := by
  unfold execute
  split
  case h_1 | h_2 | h_3 | h_6 => exact Nat.zero_le 1
  case h_4 => exact jumpArm_records_le_one v T S
  case h_5 => exact printArm_records_le_one v S
  case h_7 => exact Nat.le_refl 1

/-- Settles O34: every arm of `exec` answers, and no arm of the Executor emits two records. -/
theorem executorNeverFails : Obligations.ExecutorNeverFails :=
  ⟨exec_answers, execute_records_le_one⟩

theorem process_marker (v : Operand) (s : State) : process 0x06#8 v s = markerPass v s := rfl

theorem process_executor {op : Opcode} (v : Operand) (s : State) (h : op ≠ 0x06#8) :
    process op v s = commit s (execute s.regs op v s.labels) := if_neg h

/-- The two routes of R108 agree with the meaning of the decoded instruction: running what an opcode and
an operand stand for is the sequencer's split between the marker pass and the Executor. -/
theorem exec_instrOf (op : Opcode) (v : Operand) (s : State) :
    exec (instrOf op v) s = .next (process op v s) := by
  rcases instrOf_cases op v with
    ⟨rfl, _⟩ | ⟨rfl, _⟩ | ⟨rfl, _⟩ | ⟨rfl, _⟩ | ⟨rfl, _⟩ | ⟨rfl, _⟩ | ⟨hu, hi⟩
  case inr.inr.inr.inr.inr.inr =>
    have hne : op ≠ 0x06#8 := by
      rintro rfl
      exact absurd hu (by decide)
    rw [hi, process_executor v s hne, execute_unknown s.regs v s.labels hu]
    rfl
  all_goals rfl

/-- At a position that holds a word the sequencer always steps: the word's two fields are processed, and
the position moves on (R108). -/
theorem seqStep_of_word {s : State} {w : Word} (hw : progWord s.program s.k = some w) :
    seqStep s = .next (advance (process (opcodeField w) (operandField w) s)) := by
  simp only [seqStep, hw, decode, exec_instrOf]

/-- Past the last word the sequencer takes no step (R108, R112). -/
theorem seqStep_past_end {s : State} (h : s.program.length ≤ s.k) :
    seqStep s = .fault .runEnded := by
  have hw : progWord s.program s.k = none := List.getElem?_eq_none h
  simp only [seqStep, hw]

/-- The marker pass does not move the sequencer: it emits a record or does nothing (R190). -/
@[simp] theorem markerPass_k (a : Operand) (s : State) : (markerPass a s).k = s.k := by
  rcases markerPass_cases a s with ⟨e, _, _, h⟩ | ⟨_, h⟩ <;> simp [h]

/-- Settles O41: a step is `process` and `advance` (`seqStep_of_word`), and `process` takes the route that
the opcode selects. -/
theorem sequencerStep : Obligations.SequencerStep := by
  refine ⟨fun s t h => ?_, fun s w hw => ⟨fun hop => ?_, fun hop S rs hex => ?_⟩⟩
  · simp [seqStep_past_end h]
  · rw [seqStep_of_word hw, hop, process_marker, advance, markerPass_k]
  · rw [seqStep_of_word hw, process_executor _ s hop, hex, commit_eq, advance]

end Sys2Proof.Proofs
end

section
/-! The accumulator instructions (spec/41_accumulator.md). -/

namespace Sys2Proof.Proofs

open Sys2Proof.Machine Sys2Proof.Laws

/-- The register write of LOAD, ADD and SUB is a write of `acc` alone: the flags word is kept (R29, R30). -/
theorem writeAcc_eq (S : Regs) (v : Word) : writeAcc S v = { S with acc := v } := rfl

/-- Committing a result that emits no record replaces the Register State and nothing else (R108). -/
theorem commit_no_records (s : State) (S : Regs) : commit s (S, []) = { s with regs := S } := by
  rw [commit_eq, List.append_nil]

/-- R130: LOAD writes its zero-extended operand to the accumulator and emits no record. -/
theorem exec_load (v : Operand) (s : State) :
    exec (.load v) s = .next { s with regs := { s.regs with acc := v.setWidth 32 } } :=
  calc exec (.load v) s = .next (commit s (writeAcc s.regs (v.setWidth 32), [])) := rfl
    _ = .next { s with regs := { s.regs with acc := v.setWidth 32 } } := by
      rw [commit_no_records, writeAcc_eq]

/-- Settles O18: the encoder puts LOAD's opcode before the operand, and `exec_load` names the next state. -/
theorem loadResult : Obligations.LoadResult :=
  fun v s => ⟨rfl, exec_load v s⟩

end Sys2Proof.Proofs
end

section
/-! JUMP (spec/42_jump.md), and the position of the sequencer after a word. -/

namespace Sys2Proof.Proofs

open Sys2Proof.Machine Sys2Proof.Laws

/-- R150: JUMP commits the answer of its arm, for the table and the registers of the state. -/
theorem exec_jump (i : Operand) (s : State) :
    exec (.jump i) s = .next (commit s (jumpArm i s.labels s.regs)) := rfl

/-- R150: an operand that is a position of the table selects the address stored there. -/
theorem jumpArm_in_range (S : Regs) {i : Operand} {T : LabelTable} (h : i.toNat < T.length) :
    jumpArm i T S = ({ S with pc := T[i.toNat].addr }, []) := by
  rcases jumpArm_cases i T S with ⟨e, he, hj⟩ | ⟨hl, _⟩
  · obtain ⟨_, rfl⟩ := List.getElem?_eq_some_iff.1 he
    exact hj
  · exact absurd hl (Nat.not_le.2 h)

/-- R150: an operand that is no position of the table gives one diagnostic and no register write. -/
theorem jumpArm_out_of_range (S : Regs) {i : Operand} {T : LabelTable} (h : T.length ≤ i.toNat) :
    jumpArm i T S = (S, [.diag .invalidLabelOperand]) := by
  rcases jumpArm_cases i T S with ⟨e, he, _⟩ | ⟨_, hj⟩
  · obtain ⟨hi, _⟩ := List.getElem?_eq_some_iff.1 he
    exact absurd h (Nat.not_le.2 hi)
  · exact hj

/-- R150: in range, the next state differs in `pc` alone. -/
theorem exec_jump_in_range {i : Operand} {s : State} (h : i.toNat < s.labels.length) :
    exec (.jump i) s = .next { s with regs := { s.regs with pc := s.labels[i.toNat].addr } } := by
  rw [exec_jump, jumpArm_in_range s.regs h, commit_no_records]

/-- R152: JUMP's arm depends on its table only through the address, if any, at the operand's position. -/
theorem jumpArm_congr (S : Regs) {i : Operand} {T T' : LabelTable}
    (h : T[i.toNat]?.map LabelEntry.addr = T'[i.toNat]?.map LabelEntry.addr) :
    jumpArm i T S = jumpArm i T' S := by
  rcases jumpArm_cases i T S with ⟨e, he, hj⟩ | ⟨hl, hj⟩ <;>
    rcases jumpArm_cases i T' S with ⟨e', he', hj'⟩ | ⟨hl', hj'⟩
  · have haddr : e.addr = e'.addr := by simpa [he, he'] using h
    rw [hj, hj', haddr]
  · simp [he, List.getElem?_eq_none hl'] at h
  · simp [he', List.getElem?_eq_none hl] at h
  · rw [hj, hj']

/-- Committing an Executor's answer neither reads nor writes the Label Table (R108). -/
theorem commit_withLabels (s : State) (T : LabelTable) (res : ExecResult) :
    commit { s with labels := T } res = { commit s res with labels := T } := by
  rcases res with ⟨S, rs⟩
  rw [commit_eq, commit_eq]

/-- Settles O24: `exec_jump_in_range` gives `pc`; the arm answers the same for both tables
(`jumpArm_congr`), and committing its answer keeps the table it is given (`commit_withLabels`). -/
theorem jumpReadsOnePosition : Obligations.JumpReadsOnePosition := by
  intro i s t T hT ht
  constructor
  · intro h
    rw [exec_jump_in_range h] at ht
    cases ht
    rfl
  · rw [exec_jump] at ht
    cases ht
    rw [exec_jump, ← jumpArm_congr s.regs hT, commit_withLabels]

/-- Settles O23: the encoder puts JUMP's opcode before the operand, and the arm's two cases name the next
state in and out of range. -/
theorem jumpResult : Obligations.JumpResult := by
  intro i s
  refine ⟨rfl, fun h => exec_jump_in_range h, fun h => ?_⟩
  rw [exec_jump, jumpArm_out_of_range s.regs h, commit_eq]

/-- The marker pass does not write the program buffer (R54, R190). -/
@[simp] theorem markerPass_program (a : Operand) (s : State) :
    (markerPass a s).program = s.program := by
  rcases markerPass_cases a s with ⟨e, _, _, h⟩ | ⟨_, h⟩ <;> simp [h]

/-- Processing a word does not move the sequencer: only `advance` does (R108, R110). -/
@[simp] theorem process_k (op : Opcode) (v : Operand) (s : State) : (process op v s).k = s.k := by
  unfold process
  split
  · exact markerPass_k v s
  · exact commit_k s _ _

/-- Processing a word does not write the program buffer (R54). -/
@[simp] theorem process_program (op : Opcode) (v : Operand) (s : State) :
    (process op v s).program = s.program := by
  unfold process
  split
  · exact markerPass_program v s
  · exact commit_program s _ _

/-- R110: whatever word stands at the position, a step of the sequencer leaves the next word of the same
buffer to be fetched. -/
theorem seqStep_fetches_next {s : State} {v w : Word} (hv : progWord s.program s.k = some v)
    (hw : progWord s.program (s.k + 1) = some w) :
    ∃ t, seqStep s = .next t ∧ progWord t.program t.k = some w :=
  ⟨_, seqStep_of_word hv, by simpa using hw⟩

/-- Settles O47: the fetch goes by the position alone (`seqStep_fetches_next`), so the `pc` that a JUMP
writes has no part in it. -/
theorem jumpDoesNotRedirect : Obligations.JumpDoesNotRedirect :=
  fun _ _ _ hjump hw => seqStep_fetches_next hjump hw

end Sys2Proof.Proofs
end

section
/-! LABEL-MARKER in the sequencer, and the unknown opcodes (spec/44_marker_unknown.md). -/

namespace Sys2Proof.Proofs

open Sys2Proof.Machine Sys2Proof.Laws

/-- R57: the search by address gives the entry with the address before which no entry has it. -/
theorem labelFindAddr_eq_some_of_first {T : LabelTable} {a : Word} {p : Nat} {e : LabelEntry}
    (he : T[p]? = some e) (ha : e.addr = a)
    (hfirst : ∀ q e', q < p → T[q]? = some e' → e'.addr ≠ a) : labelFindAddr T a = some e := by
  obtain ⟨hp, hpe⟩ := List.getElem?_eq_some_iff.1 he
  refine List.find?_eq_some_iff_getElem.2 ⟨by simpa using ha, p, hp, hpe, fun q hq => ?_⟩
  have hne : T[q].addr ≠ a := hfirst q T[q] hq (List.getElem?_eq_getElem (hq.trans hp))
  simpa using hne

/-- R57: the search by address gives nothing when no entry has the address. -/
theorem labelFindAddr_eq_none {T : LabelTable} {a : Word} (h : ∀ e ∈ T, e.addr ≠ a) :
    labelFindAddr T a = none :=
  List.find?_eq_none.2 (by simpa using h)

/-- R190: LABEL-MARKER answers by what the search for its zero-extended operand finds. -/
theorem exec_labelMarker_of_find_some {a : Operand} {s : State} {e : LabelEntry}
    (h : labelFindAddr s.labels (a.setWidth 32) = some e) :
    exec (.labelMarker a) s = .next (emit s (.label e.name)) := by
  simp only [exec, execLabelMarker, markerPass, labelAddress, zext32, h]

theorem exec_labelMarker_of_find_none {a : Operand} {s : State}
    (h : labelFindAddr s.labels (a.setWidth 32) = none) :
    exec (.labelMarker a) s = .next s := by
  simp only [exec, execLabelMarker, markerPass, labelAddress, zext32, h]

/-- Settles O28: the search finds the first entry with the address (`labelFindAddr_eq_some_of_first`) or
nothing (`labelFindAddr_eq_none`), and the marker pass answers by it. -/
theorem markerResult : Obligations.MarkerResult := by
  refine fun a s => ⟨rfl, fun p e he ha hfirst => ?_, fun hnone => ?_⟩
  · exact exec_labelMarker_of_find_some (labelFindAddr_eq_some_of_first he ha hfirst)
  · exact exec_labelMarker_of_find_none (labelFindAddr_eq_none hnone)

/-- Settles O32: of the cases of the opcode map only the default arm is left (`instrOf_cases`), and
`exec_unknown` names the next state. -/
theorem unknownResult : Obligations.UnknownResult := by
  refine fun op v s => ⟨fun h1 h2 h3 h4 h5 h6 => ?_, exec_unknown op v s⟩
  rw [decode_append]
  rcases instrOf_cases op v with
    ⟨h, _⟩ | ⟨h, _⟩ | ⟨h, _⟩ | ⟨h, _⟩ | ⟨h, _⟩ | ⟨h, _⟩ | ⟨_, hi⟩
  case inr.inr.inr.inr.inr.inr => exact hi
  all_goals contradiction

end Sys2Proof.Proofs
end

section
/-! Diagnostics and the error indicators (spec/60_exceptions.md). -/

namespace Sys2Proof.Proofs

open Sys2Proof.Machine Sys2Proof.Laws

/-- No instruction both writes a register and emits: it leaves the trace alone, or one record is its only
effect (R108, R190). -/
theorem exec_trace_eq_or_emit {i : Instr} {s t : State} (h : exec i s = .next t) :
    t.trace = s.trace ∨ ∃ r, t = emit s r := by
  rcases exec_cases h with
    ⟨_, _, rfl⟩ | ⟨_, _, rfl⟩ | ⟨_, _, rfl⟩ | ⟨_, _, _, _, rfl⟩ | ⟨_, _, _, rfl⟩ | ⟨_, _, _, rfl⟩ |
    ⟨_, _, _, rfl⟩ | ⟨_, _, _, rfl⟩ | ⟨_, _, _, _, _, rfl⟩ | ⟨_, _, _, rfl⟩ | ⟨_, _, _, rfl⟩
  -- LOAD, ADD, SUB, JUMP in range, and the marker without an entry are the silent cases
  case inl | inr.inl | inr.inr.inl | inr.inr.inr.inl |
      inr.inr.inr.inr.inr.inr.inr.inr.inr.inl => exact .inl rfl
  all_goals exact .inr ⟨_, rfl⟩

/-- An instruction that leaves one more record has done nothing but emit it. -/
theorem exec_eq_emit_of_trace {i : Instr} {s t : State} {r : TraceRecord} (h : exec i s = .next t)
    (htr : t.trace = s.trace ++ [r]) : t = emit s r := by
  rcases exec_trace_eq_or_emit h with hsilent | ⟨r', rfl⟩
  · simp [hsilent] at htr
  · have hr : r' = r := by simpa using htr
    rw [hr]

/-- A step of the sequencer that leaves one more record has emitted it and moved on, no more (R108). -/
theorem seqStep_eq_advance_emit_of_trace {s t : State} {r : TraceRecord} (h : seqStep s = .next t)
    (htr : t.trace = s.trace ++ [r]) : t = advance (emit s r) := by
  obtain ⟨w, u, _, hu, rfl⟩ := seqStep_cases h
  rw [exec_eq_emit_of_trace hu htr]

/-- Settles O38: the next state is `advance (emit s (.diag kind))`, whose registers are those of `s`. -/
theorem diagnosticsChangeNoRegister : Obligations.DiagnosticsChangeNoRegister := by
  intro s t kind h htr
  rw [seqStep_eq_advance_emit_of_trace h htr]
  exact ⟨rfl, rfl⟩

section Priority
variable {c r g d : Word} (e : ErrIndicators)

/-- R220: a CPU code is recorded whatever the other codes are. -/
theorem setErrorFlags_cpu (hc : c ≠ 0) : setErrorFlags c r g d e = { e with cpu := c } :=
  if_pos hc

/-- R220: without a CPU code, a RAM code is recorded. -/
theorem setErrorFlags_ram (hr : r ≠ 0) : setErrorFlags 0 r g d e = { e with ram := r } :=
  if_pos hr

/-- R220: without a CPU or RAM code, a GPU code is recorded. -/
theorem setErrorFlags_gpu (hg : g ≠ 0) : setErrorFlags 0 0 g d e = { e with gpu := g } :=
  if_pos hg

/-- R220: a disk code is recorded when it is the only one. -/
theorem setErrorFlags_disk (hd : d ≠ 0) : setErrorFlags 0 0 0 d e = { e with disk := d } :=
  if_pos hd

/-- R220: a call of four zeros records nothing. -/
theorem setErrorFlags_zero : setErrorFlags 0 0 0 0 e = e := rfl

end Priority

/-- Settles O6: one equation per place of the first non-zero code. -/
theorem setErrorFlagsPriority : Obligations.SetErrorFlagsPriority := by
  intro c r g d e
  refine ⟨setErrorFlags_cpu e, ?_, ?_, ?_, ?_⟩
  · rintro rfl hr
    exact setErrorFlags_ram e hr
  · rintro rfl rfl hg
    exact setErrorFlags_gpu e hg
  · rintro rfl rfl rfl hd
    exact setErrorFlags_disk e hd
  · rintro rfl rfl rfl rfl
    exact setErrorFlags_zero e

end Sys2Proof.Proofs
end

section
/-! Reset and `init` (spec/70_reset_and_hazards.md). -/

namespace Sys2Proof.Proofs

open Sys2Proof.Machine

/-- R250's table: the Register State that `init` writes holds 0 in each of the twelve fields. -/
theorem regsZero_fields :
    Regs.zero.acc = 0 ∧ Regs.zero.gpr0 = 0 ∧ Regs.zero.gpr1 = 0 ∧ Regs.zero.gpr2 = 0 ∧
    Regs.zero.pc = 0 ∧ Regs.zero.flags = 0 ∧ Regs.zero.ip = 0 ∧ Regs.zero.seg = 0 ∧
    Regs.zero.err.cpu = 0 ∧ Regs.zero.err.ram = 0 ∧ Regs.zero.err.gpu = 0 ∧
    Regs.zero.err.disk = 0 :=
  ⟨rfl, rfl, rfl, rfl, rfl, rfl, rfl, rfl, rfl, rfl, rfl, rfl⟩

/-- R250, R252: before a run `init` answers, and it writes the Register State and nothing else. -/
theorem initPort_before_run {s : State} (hk : s.k = 0) :
    initPort s = .next { s with regs := .zero } :=
  if_neg (not_not_intro hk)

/-- Settles O1: the registers after `init` (`initPort_before_run`) and those of `State.reset` are both
`Regs.zero`. -/
theorem initZeroesEveryRegister : Obligations.InitZeroesEveryRegister := by
  intro s hk
  exact ⟨⟨_, initPort_before_run hk, regsZero_fields⟩, regsZero_fields⟩

end Sys2Proof.Proofs
end

section
/-! The encoding (spec/30_encoding.md), the loader's byte orders, and the assembler. -/

namespace Sys2Proof.Proofs

open Sys2Proof.Machine Sys2Proof.Laws

/-- R84: the instruction an opcode and an operand stand for carries that opcode. -/
theorem opcode_instrOf (op : Opcode) (v : Operand) : (instrOf op v).opcode = op := by
  rcases instrOf_cases op v with
    ⟨rfl, _⟩ | ⟨rfl, _⟩ | ⟨rfl, _⟩ | ⟨rfl, _⟩ | ⟨rfl, _⟩ | ⟨rfl, _⟩ | ⟨_, hi⟩
  case inr.inr.inr.inr.inr.inr => rw [hi, Instr.opcode]
  all_goals rfl

/-- R84: the instruction an opcode and an operand stand for carries that operand. -/
theorem operand_instrOf (op : Opcode) (v : Operand) : (instrOf op v).operand = v := by
  rcases instrOf_cases op v with
    ⟨_, hi⟩ | ⟨_, hi⟩ | ⟨_, hi⟩ | ⟨_, hi⟩ | ⟨_, hi⟩ | ⟨_, hi⟩ | ⟨_, hi⟩ <;>
    rw [hi, Instr.operand]

/-- R86: the default arm of the opcode map is taken on the unknown space alone. -/
theorem wf_instrOf (op : Opcode) (v : Operand) : (instrOf op v).wf = true := by
  rcases instrOf_cases op v with
    ⟨_, hi⟩ | ⟨_, hi⟩ | ⟨_, hi⟩ | ⟨_, hi⟩ | ⟨_, hi⟩ | ⟨_, hi⟩ | ⟨hu, hi⟩
  case inr.inr.inr.inr.inr.inr => rw [hi, Instr.wf, hu]
  all_goals rw [hi, Instr.wf]

/-- Settles O13: one round trip per row of the opcode table. -/
theorem decodeOfEncode : Obligations.DecodeOfEncode := by
  intro i
  cases i with
  | load v => exact RoundTrip.load v
  | add v => exact RoundTrip.add v
  | sub v => exact RoundTrip.sub v
  | jump i => exact RoundTrip.jump i
  | print r => exact RoundTrip.print r
  | labelMarker a => exact RoundTrip.labelMarker a
  | unknown op v => exact RoundTrip.unknown op v

/-- Settles O14: the decoded instruction carries the two fields of the word, which are all of it. -/
theorem encodeOfDecode : Obligations.EncodeOfDecode := by
  refine fun w => ⟨?_, wf_instrOf _ _⟩
  rw [encode, decode, opcode_instrOf, operand_instrOf, encodeFields, fields_append]

/-- Settles O15: the fields of a concatenation are its parts, and the fields of a word are all of it. -/
theorem fieldsRoundTrip : Obligations.FieldsRoundTrip := by
  refine ⟨fun o v => ?_, fields_append⟩
  rw [decodeFields, encodeFields, opcodeField_append, operandField_append]

/-- The four bytes of a word, from bits 31..24 down, are all of it. -/
theorem bytes_append (w : Word) :
    w.extractLsb' 24 8 ++ w.extractLsb' 16 8 ++ w.extractLsb' 8 8 ++ w.extractLsb' 0 8 = w := by
  rw [BitVec.extractLsb'_append_extractLsb'_eq_extractLsb' (start₂ := 24) (start₁ := 16) rfl,
    BitVec.extractLsb'_append_extractLsb'_eq_extractLsb' (start₂ := 16) (start₁ := 8) rfl,
    BitVec.extractLsb'_append_extractLsb'_eq_extractLsb' (start₂ := 8) (start₁ := 0) rfl]
  exact BitVec.extractLsb'_eq_self

/-- R53: a loader takes the four bytes of one word and then the words of the rest of the stream. -/
theorem wordsOfBytes_cons {order : ByteOrder} {b0 b1 b2 b3 : Byte} {rest : List Byte}
    {ws : List Word} (h : wordsOfBytes order rest = .ok ws) :
    wordsOfBytes order (b0 :: b1 :: b2 :: b3 :: rest) =
      .ok (wordOfBytes order b0 b1 b2 b3 :: ws) := by
  rw [wordsOfBytes, h]

/-- Settles O16: by induction on the words; in either order the bytes of one word give it back. -/
theorem loaderReadsWordsInItsByteOrder : Obligations.LoaderReadsWordsInItsByteOrder := by
  intro ws
  induction ws with
  | nil => exact ⟨rfl, rfl⟩
  | cons w ws ih =>
    obtain ⟨hlittle, hbig⟩ := ih
    constructor
    · rw [List.flatMap_cons]
      exact (wordsOfBytes_cons hlittle).trans (by rw [wordOfBytes, bytes_append])
    · rw [List.flatMap_cons]
      exact (wordsOfBytes_cons hbig).trans (by rw [wordOfBytes, bytes_append])

/-- Settles O12: the six words are closed terms. -/
theorem decodeVectors : Obligations.DecodeVectors := by
  unfold Obligations.DecodeVectors
  decide

/-- R85: an immediate of 24 bits is encoded under its opcode. -/
theorem asmImmediate_of_le (op : Opcode) {n : Nat} (h : n ≤ 0xFFFFFF) :
    asmImmediate op n = .ok (encodeFields op (BitVec.ofNat 24 n)) := if_pos h

/-- R85: a wider immediate is refused. -/
theorem asmImmediate_of_lt (op : Opcode) {n : Nat} (h : 0xFFFFFF < n) :
    asmImmediate op n = .error .tooWide := if_neg (Nat.not_le.2 h)

/-- Settles O17: each of the six forms is `asmImmediate` under its opcode. -/
theorem assemblerRefusesWideImmediates : Obligations.AssemblerRefusesWideImmediates :=
  fun _ => ⟨fun h => ⟨asmImmediate_of_le _ h, asmImmediate_of_le _ h, asmImmediate_of_le _ h,
      asmImmediate_of_le _ h, asmImmediate_of_le _ h, asmImmediate_of_le _ h⟩,
    fun h => ⟨asmImmediate_of_lt _ h, asmImmediate_of_lt _ h, asmImmediate_of_lt _ h,
      asmImmediate_of_lt _ h, asmImmediate_of_lt _ h, asmImmediate_of_lt _ h⟩⟩

end Sys2Proof.Proofs
end

section
/-! What an instruction does, as one equation: the next state with each part computed from the parts of
the state that the instruction reads (spec/10_state.md section 1, columns "read by" and "written by"). -/

namespace Sys2Proof.Proofs

open Sys2Proof.Machine Sys2Proof.Laws

/-- The accumulator after an instruction that finds it at `acc` (R130, R133, R136). -/
def accAfter (acc : Word) : Instr → Word
  | .load v => v.setWidth 32
  | .add v => acc + v.setWidth 32
  | .sub v => acc - v.setWidth 32
  | .jump _ => acc
  | .print _ => acc
  | .labelMarker _ => acc
  | .unknown _ _ => acc

/-- The program counter after an instruction that finds it at `pc`, with the table `T` (R150). -/
def pcAfter (pc : Word) (T : LabelTable) : Instr → Word
  | .load _ => pc
  | .add _ => pc
  | .sub _ => pc
  | .jump i => (T[i.toNat]?.map LabelEntry.addr).getD pc
  | .print _ => pc
  | .labelMarker _ => pc
  | .unknown _ _ => pc

/-- The records of an instruction, which reads the accumulator, `gpr[0]` and the table (R150, R170, R190,
R194). -/
def recordsOf (acc gpr0 : Word) (T : LabelTable) : Instr → List TraceRecord
  | .load _ => []
  | .add _ => []
  | .sub _ => []
  | .jump i => if i.toNat < T.length then [] else [.diag .invalidLabelOperand]
  | .print r =>
    if r.toNat = 0 then [.value .acc acc.toInt]
    else if r.toNat = 1 then [.value .ax gpr0.toInt]
    else [.diag .unknownRegister]
  | .labelMarker a => ((labelFindAddr T (a.setWidth 32)).map fun e => .label e.name).toList
  | .unknown _ _ => [.diag .unknownInstruction]

/-- The state after an instruction: only `acc`, `pc` and the trace are written. -/
def runInstr (s : State) (i : Instr) : State :=
  { s with
    regs := { s.regs with
      acc := accAfter s.regs.acc i
      pc := pcAfter s.regs.pc s.labels i }
    trace := s.trace ++ recordsOf s.regs.acc s.regs.gpr0 s.labels i }

/-- An instruction that keeps `pc` and emits nothing writes the accumulator alone. -/
theorem runInstr_eq_write_acc {s : State} {i : Instr}
    (hpc : pcAfter s.regs.pc s.labels i = s.regs.pc)
    (hrecords : recordsOf s.regs.acc s.regs.gpr0 s.labels i = []) :
    runInstr s i = { s with regs := { s.regs with acc := accAfter s.regs.acc i } } := by
  rw [runInstr, hpc, hrecords, List.append_nil]

/-- R133: ADD writes the 32-bit sum to the accumulator and emits no record. -/
theorem exec_add (v : Operand) (s : State) :
    exec (.add v) s =
      .next { s with regs := { s.regs with acc := s.regs.acc + v.setWidth 32 } } :=
  calc exec (.add v) s =
      .next (commit s (writeAcc s.regs (s.regs.acc + v.setWidth 32), [])) := rfl
    _ = _ := by rw [commit_no_records, writeAcc_eq]

/-- R136: SUB writes the 32-bit difference to the accumulator and emits no record. -/
theorem exec_sub (v : Operand) (s : State) :
    exec (.sub v) s =
      .next { s with regs := { s.regs with acc := s.regs.acc - v.setWidth 32 } } :=
  calc exec (.sub v) s =
      .next (commit s (writeAcc s.regs (s.regs.acc - v.setWidth 32), [])) := rfl
    _ = _ := by rw [commit_no_records, writeAcc_eq]

/-- R170: PRINT commits the answer of its arm. -/
theorem exec_print (r : Operand) (s : State) :
    exec (.print r) s = .next (commit s (printArm r s.regs)) := rfl

/-- R170: PRINT emits the record that its operand selects. -/
theorem exec_print_eq_runInstr (r : Operand) (s : State) :
    exec (.print r) s = .next (runInstr s (.print r)) := by
  rw [exec_print]
  rcases printArm_cases r s.regs with ⟨h, hp⟩ | ⟨h, hp⟩ | ⟨h, hp⟩
  · simp [hp, commit_eq, runInstr, accAfter, pcAfter, recordsOf, h]
  · simp [hp, commit_eq, runInstr, accAfter, pcAfter, recordsOf, h]
  · have h0 : r.toNat ≠ 0 := by omega
    have h1 : r.toNat ≠ 1 := by omega
    simp [hp, commit_eq, runInstr, accAfter, pcAfter, recordsOf, h0, h1]

/-- R150: JUMP by the operand's position, in range or not. -/
theorem exec_jump_eq_runInstr (i : Operand) (s : State) :
    exec (.jump i) s = .next (runInstr s (.jump i)) := by
  rcases Nat.lt_or_ge i.toNat s.labels.length with h | h
  · simp [exec_jump_in_range h, runInstr, accAfter, pcAfter, recordsOf, h]
  · rw [exec_jump, jumpArm_out_of_range s.regs h, commit_eq]
    simp [runInstr, accAfter, pcAfter, recordsOf, Nat.not_lt.2 h]

/-- R190: LABEL-MARKER by what the search for its zero-extended operand finds. -/
theorem exec_labelMarker_eq_runInstr (a : Operand) (s : State) :
    exec (.labelMarker a) s = .next (runInstr s (.labelMarker a)) := by
  cases h : labelFindAddr s.labels (a.setWidth 32) with
  | some e =>
    simp [exec_labelMarker_of_find_some h, emit, runInstr, accAfter, pcAfter, recordsOf, h]
  | none => simp [exec_labelMarker_of_find_none h, runInstr, accAfter, pcAfter, recordsOf, h]

/-- Every instruction, in every state, answers the state `runInstr` gives: what it reads and what it
writes can be seen from the arguments of `accAfter`, `pcAfter` and `recordsOf`. -/
theorem exec_eq_runInstr (i : Instr) (s : State) : exec i s = .next (runInstr s i) := by
  cases i with
  | load v => rw [exec_load, runInstr_eq_write_acc rfl rfl, accAfter]
  | add v => rw [exec_add, runInstr_eq_write_acc rfl rfl, accAfter]
  | sub v => rw [exec_sub, runInstr_eq_write_acc rfl rfl, accAfter]
  | jump i => exact exec_jump_eq_runInstr i s
  | print r => exact exec_print_eq_runInstr r s
  | labelMarker a => exact exec_labelMarker_eq_runInstr a s
  | unknown op v => exact exec_unknown op v s

/-- The next state of an instruction is `runInstr`'s. -/
theorem eq_runInstr_of_exec {i : Instr} {s t : State} (h : exec i s = .next t) :
    t = runInstr s i := by
  rw [exec_eq_runInstr] at h
  cases h
  rfl

end Sys2Proof.Proofs
end

section
/-! What an instruction leaves unchanged and does not read, and which diagnostic it raises
(spec/10_state.md, spec/20_memory.md section 5, spec/60_exceptions.md). -/

namespace Sys2Proof.Proofs

open Sys2Proof.Machine Sys2Proof.Laws

/-- R106: an instruction emits at most one record. -/
theorem recordsOf_length_le_one (acc gpr0 : Word) (T : LabelTable) (i : Instr) :
    (recordsOf acc gpr0 T i).length ≤ 1 := by
  cases i with
  | load | add | sub => exact Nat.zero_le 1
  | jump i => rw [recordsOf]; split <;> simp
  | print r => rw [recordsOf]; split_ifs <;> simp
  | labelMarker a =>
    rw [recordsOf]
    cases labelFindAddr T (a.setWidth 32) <;> simp
  | unknown => exact Nat.le_refl 1

/-- R22: only LOAD, ADD and SUB write the accumulator. -/
theorem accAfter_of_not_accumulator {i : Instr} (acc : Word)
    (h : ∀ v, i ≠ .load v ∧ i ≠ .add v ∧ i ≠ .sub v) : accAfter acc i = acc := by
  cases i with
  | load v => exact absurd rfl (h v).1
  | add v => exact absurd rfl (h v).2.1
  | sub v => exact absurd rfl (h v).2.2
  | jump | print | labelMarker | unknown => rfl

/-- R26: only JUMP writes the program counter. -/
theorem pcAfter_of_not_jump {i : Instr} (pc : Word) (T : LabelTable) (h : ∀ v, i ≠ .jump v) :
    pcAfter pc T i = pc := by
  cases i with
  | jump v => exact absurd rfl (h v)
  | load | add | sub | print | labelMarker | unknown => rfl

/-- Settles O37: `runInstr` writes three parts of the state; the clauses on `acc`, `pc` and the trace say
when, and how much. -/
theorem execFrame : Obligations.ExecFrame := by
  intro i s t h
  rw [eq_runInstr_of_exec h]
  exact ⟨rfl, rfl, rfl, rfl, rfl, rfl, rfl, rfl, rfl, rfl, rfl, accAfter_of_not_accumulator _,
    pcAfter_of_not_jump _ _, _, rfl, recordsOf_length_le_one _ _ _ _⟩

/-- Settles O40: neither the parts of `runInstr` nor their arguments include an indicator. -/
theorem errorIndicatorsArePassive : Obligations.ErrorIndicatorsArePassive := by
  intro i s t e h
  rw [eq_runInstr_of_exec h]
  exact ⟨rfl, exec_eq_runInstr i _⟩

/-- R108: a step of the sequencer moves one position on, and only to positions up to the end. -/
theorem seqStep_position {s t : State} (h : seqStep s = .next t) :
    t.k = s.k + 1 ∧ t.k ≤ t.program.length := by
  obtain ⟨w, u, hw, hu, rfl⟩ := seqStep_cases h
  obtain ⟨hk, _⟩ := List.getElem?_eq_some_iff.1 hw
  rw [eq_runInstr_of_exec hu]
  exact ⟨rfl, hk⟩

/-- Settles O46: a step moves by one (`seqStep_position`), and `runInstr` neither reads nor writes `k`. -/
theorem positionAdvancesByOne : Obligations.PositionAdvancesByOne := by
  refine ⟨rfl, fun s t h => seqStep_position h, fun i s t j h => ?_⟩
  rw [eq_runInstr_of_exec h]
  exact ⟨rfl, exec_eq_runInstr i _⟩

section Diagnostics
variable (acc gpr0 : Word) (T : LabelTable) (i : Instr)

/-- The one record of the marker pass is no diagnostic (R190). -/
theorem recordsOf_labelMarker_ne_diag (a : Operand) (kind : DiagKind) :
    recordsOf acc gpr0 T (.labelMarker a) ≠ [.diag kind] := by
  rw [recordsOf]
  cases labelFindAddr T (a.setWidth 32) <;> simp

/-- R194: UnknownInstruction is the record of the row UNKNOWN. -/
theorem recordsOf_eq_unknownInstruction_iff :
    recordsOf acc gpr0 T i = [.diag .unknownInstruction] ↔ ∃ op v, i = .unknown op v := by
  cases i with
  | load | add | sub => simp [recordsOf]
  | jump => rw [recordsOf]; split <;> simp
  | print => rw [recordsOf]; split_ifs <;> simp
  | labelMarker a => simp [recordsOf_labelMarker_ne_diag]
  | unknown => simp [recordsOf]

/-- R150: InvalidLabelOperand is the record of a JUMP out of range. -/
theorem recordsOf_eq_invalidLabelOperand_iff :
    recordsOf acc gpr0 T i = [.diag .invalidLabelOperand] ↔
      ∃ v, i = .jump v ∧ T.length ≤ v.toNat := by
  cases i with
  | load | add | sub | unknown => simp [recordsOf]
  | jump v =>
    rcases Nat.lt_or_ge v.toNat T.length with h | h
    · simp [recordsOf, h]
    · simp [recordsOf, h, Nat.not_lt.2 h]
  | print => rw [recordsOf]; split_ifs <;> simp
  | labelMarker a => simp [recordsOf_labelMarker_ne_diag]

/-- R170: UnknownRegister is the record of a PRINT whose operand selects no register. -/
theorem recordsOf_eq_unknownRegister_iff :
    recordsOf acc gpr0 T i = [.diag .unknownRegister] ↔ ∃ v, i = .print v ∧ 2 ≤ v.toNat := by
  cases i with
  | load | add | sub | unknown => simp [recordsOf]
  | jump => rw [recordsOf]; split <;> simp
  | print v =>
    rw [recordsOf]
    split_ifs with h0 h1
    · simp [h0]
    · simp [h1]
    · have h2 : 2 ≤ v.toNat := by omega
      simp [h2]
  | labelMarker a => simp [recordsOf_labelMarker_ne_diag]

end Diagnostics

/-- Settles O39: the new records are `recordsOf`'s, and each diagnostic is one row's alone. -/
theorem diagnosticCauses : Obligations.DiagnosticCauses := by
  intro i s t h
  rw [eq_runInstr_of_exec h]
  simp only [runInstr, List.append_cancel_left_eq]
  exact ⟨recordsOf_eq_unknownInstruction_iff _ _ _ _, recordsOf_eq_invalidLabelOperand_iff _ _ _ _,
    recordsOf_eq_unknownRegister_iff _ _ _ _⟩

end Sys2Proof.Proofs
end

section
/-! The accumulator in the integers (spec/41_accumulator.md sections 2 to 4). -/

namespace Sys2Proof.Proofs

open Sys2Proof.Machine Sys2Proof.Laws Sys2Proof.Safety

/-- R82: an operand is zero-extended, so its signed reading is the operand itself. -/
theorem setWidth_eq_ofInt (v : Operand) : v.setWidth 32 = BitVec.ofInt 32 v.toNat := by
  rw [BitVec.ofInt_natCast, BitVec.ofNat_toNat]

/-- Reduction modulo 2^32 goes through a difference. -/
theorem ofInt32_sub (x y : Int) :
    BitVec.ofInt 32 (x - y) = BitVec.ofInt 32 x - BitVec.ofInt 32 y :=
  eq_sub_of_add_eq (by rw [← BitVec.ofInt_add, sub_add_cancel])

/-- One instruction on the 32-bit accumulator is the same instruction in the integers, reduced modulo
2^32 (R130, R133, R136, decision D2). -/
theorem accAfter_ofInt (x : Int) (i : Instr) :
    accAfter (BitVec.ofInt 32 x) i = BitVec.ofInt 32 (accEffect x i) := by
  cases i with
  | load v => exact setWidth_eq_ofInt v
  | add v => rw [accAfter, accEffect, setWidth_eq_ofInt, ← BitVec.ofInt_add]
  | sub v => rw [accAfter, accEffect, setWidth_eq_ofInt, ← ofInt32_sub]
  | jump | print | labelMarker | unknown => rfl

/-- The accumulator after an instruction, from its signed reading before. -/
theorem accAfter_eq_ofInt (acc : Word) (i : Instr) :
    accAfter acc i = BitVec.ofInt 32 (accEffect acc.toInt i) := by
  rw [← accAfter_ofInt, BitVec.ofInt_toInt]

/-- Numbers that differ by 2^32 have the same reduction. -/
theorem ofInt32_add_two_pow (x : Int) : BitVec.ofInt 32 (x + 2 ^ 32) = BitVec.ofInt 32 x := by
  rw [BitVec.ofInt_add]
  exact BitVec.add_zero _

/-- R8: a number in the signed range is read back from its reduction. -/
theorem toInt_ofInt32_of_fits {x : Int} (h : FitsSigned32 x) : (BitVec.ofInt 32 x).toInt = x := by
  obtain ⟨hlow, hhigh⟩ := h
  rw [BitVec.toInt_ofInt]
  exact Int.bmod_eq_of_le (by norm_num at *; omega) (by norm_num at *; omega)

/-- A word's signed reading is in the signed range. -/
theorem toInt_fits (w : Word) : FitsSigned32 w.toInt :=
  ⟨BitVec.le_toInt w, Int.le_sub_one_of_lt BitVec.toInt_lt⟩

/-- Settles O20: the encoder puts ADD's opcode before the operand, and `exec_add` names the next state. -/
theorem addResult : Obligations.AddResult :=
  fun v s => ⟨rfl, exec_add v s⟩

/-- Settles O21: the encoder puts SUB's opcode before the operand, and `exec_sub` names the next state. -/
theorem subResult : Obligations.SubResult :=
  fun v s => ⟨rfl, exec_sub v s⟩

/-- Settles O22: the new accumulator is the reduction of the exact result, which fits as it is or after
2^32 is taken off or added. -/
theorem signedSumAndDifference : Obligations.SignedSumAndDifference := by
  intro v s t
  have hv := v.isLt
  obtain ⟨hlow, hhigh⟩ := toInt_fits s.regs.acc
  constructor
  · intro h
    have hacc : t.regs.acc = BitVec.ofInt 32 (s.regs.acc.toInt + v.toNat) := by
      rw [eq_runInstr_of_exec h]
      exact accAfter_eq_ofInt s.regs.acc (.add v)
    rw [hacc]
    refine ⟨fun hfit => toInt_ofInt32_of_fits ⟨by omega, hfit⟩, fun hover => ?_⟩
    rw [← toInt_ofInt32_of_fits (x := s.regs.acc.toInt + v.toNat - 2 ^ 32)
      ⟨by omega, by omega⟩, ← ofInt32_add_two_pow (_ - 2 ^ 32), sub_add_cancel]
  · intro h
    have hacc : t.regs.acc = BitVec.ofInt 32 (s.regs.acc.toInt - v.toNat) := by
      rw [eq_runInstr_of_exec h]
      exact accAfter_eq_ofInt s.regs.acc (.sub v)
    rw [hacc]
    refine ⟨fun hfit => toInt_ofInt32_of_fits ⟨hfit, by omega⟩, fun hunder => ?_⟩
    rw [← toInt_ofInt32_of_fits (x := s.regs.acc.toInt - v.toNat + 2 ^ 32)
      ⟨by omega, by omega⟩, ofInt32_add_two_pow]

/-- Settles O19: LOAD writes its operand, zero-extended, and every number below 2^24 is an operand. -/
theorem loadGivesTheUnsignedOperands : Obligations.LoadGivesTheUnsignedOperands := by
  have hload : ∀ v : Operand, (v.setWidth 32 : Word).toNat = v.toNat := fun v =>
    BitVec.toNat_setWidth_of_le (by decide)
  refine ⟨fun v s t h => ?_, fun n hn s => ⟨BitVec.ofNat 24 n, _, exec_load _ s, ?_⟩⟩
  · have hv := v.isLt
    have hacc : t.regs.acc = v.setWidth 32 := by rw [eq_runInstr_of_exec h]; rfl
    rw [hacc]
    refine ⟨?_, by rw [hload]; omega⟩
    rw [setWidth_eq_ofInt]
    exact toInt_ofInt32_of_fits ⟨by omega, by omega⟩
  · rw [hload, BitVec.toNat_ofNat, Nat.mod_eq_of_lt (by omega)]

end Sys2Proof.Proofs
end

section
/-! PRINT, the marker pass, the ports of the Label Table, and the Executor's use of it
(spec/20_memory.md section 2, spec/43_print.md, spec/44_marker_unknown.md). -/

namespace Sys2Proof.Proofs

open Sys2Proof.Machine Sys2Proof.Laws Sys2Proof.Safety

/-- PRINT writes no register: its records are its only effect (R170). -/
theorem runInstr_print (r : Operand) (s : State) :
    runInstr s (.print r) =
      { s with trace := s.trace ++ recordsOf s.regs.acc s.regs.gpr0 s.labels (.print r) } := rfl

/-- Settles O26: PRINT emits the record that its operand selects. -/
theorem printResult : Obligations.PrintResult := by
  intro r s
  rw [exec_print_eq_runInstr, runInstr_print]
  refine ⟨rfl, ?_, ?_, fun h => ?_⟩
  · rintro rfl
    rfl
  · rintro rfl
    rfl
  · have h0 : r.toNat ≠ 0 := by omega
    have h1 : r.toNat ≠ 1 := by omega
    rw [recordsOf, if_neg h0, if_neg h1]

/-- Settles O27: PRINT 1 emits the signed `gpr[0]`, which the invariant says is 0. -/
theorem printAxEmitsZero : Obligations.PrintAxEmitsZero := by
  intro s hinv
  obtain ⟨_, _, hax, _⟩ := printResult 1#24 s
  rw [hax rfl, hinv.gpr0]
  rfl

/-- Settles O31: the first match of the search, by position (R57, D13). -/
theorem findByAddressIsFirstMatch : Obligations.FindByAddressIsFirstMatch := by
  intro T a e
  constructor
  · intro h
    obtain ⟨ha, p, hp, hpe, hfirst⟩ := List.find?_eq_some_iff_getElem.1 h
    refine ⟨p, List.getElem?_eq_some_iff.2 ⟨hp, hpe⟩, by simpa using ha, fun q e' hq he' => ?_⟩
    obtain ⟨_, rfl⟩ := List.getElem?_eq_some_iff.1 he'
    simpa using hfirst q hq
  · rintro ⟨p, he, ha, hfirst⟩
    exact labelFindAddr_eq_some_of_first he ha hfirst

/-- The search by address reads the entries with that address alone (R57). -/
theorem labelFindAddr_eq_head?_filter (T : LabelTable) (a : Word) :
    labelFindAddr T a = (T.filter fun e => e.addr == a).head? :=
  List.head?_filter.symm

/-- Settles O29: the marker pass uses the table through the search by address alone. -/
theorem markerIgnoresPositions : Obligations.MarkerIgnoresPositions := by
  intro a s t T hT h
  have hfind : labelFindAddr s.labels (a.setWidth 32) = labelFindAddr T (a.setWidth 32) := by
    rw [labelFindAddr_eq_head?_filter, hT, labelFindAddr_eq_head?_filter]
  rw [eq_runInstr_of_exec h, exec_labelMarker_eq_runInstr]
  simp only [runInstr, accAfter, pcAfter, recordsOf, hfind]

/-- R82: the address of a marker is at most 0xFFFFFF. -/
theorem addr_le_of_eq_operand {w : Word} {a : Operand} (h : w = a.setWidth 32) :
    w.toNat ≤ 0xFFFFFF := by
  have ha := a.isLt
  rw [h, BitVec.toNat_setWidth_of_le (by decide)]
  omega

/-- Settles O30: the entries with the operand's address are all narrow, so the narrowed table holds the
same ones (`markerIgnoresPositions`). -/
theorem wideAddressesAreNeverMatched : Obligations.WideAddressesAreNeverMatched := by
  intro a s t h
  refine markerIgnoresPositions a s t _ ?_ h
  rw [List.filter_filter]
  refine List.filter_congr fun e _ => ?_
  rw [Bool.eq_iff_iff]
  simpa using addr_le_of_eq_operand

/-- Settles O35: the arm answers the registers it is given and no record (decision D21). -/
theorem executorMarkerArmHasNoEffect : Obligations.ExecutorMarkerArmHasNoEffect :=
  fun _ _ _ => rfl

/-- Settles O36: of the arms of the Executor only the fourth is given the table. -/
theorem onlyJumpReadsTheTable : Obligations.OnlyJumpReadsTheTable := by
  intro S op v T T' hop
  unfold execute
  split
  case h_4 => exact absurd rfl hop
  all_goals rfl

end Sys2Proof.Proofs
end

section
/-! The host's ports (spec/20_memory.md section 2, spec/40_dispatch.md section 1,
spec/60_exceptions.md section 3, spec/70_reset_and_hazards.md). -/

namespace Sys2Proof.Proofs

open Sys2Proof.Machine Sys2Proof.Laws

section Admitted
variable {s t : State}

/-- R250, R252: when `init` answers, no step has been taken, and the registers alone are written. -/
theorem initPort_cases (h : initPort s = .next t) : s.k = 0 ∧ t = { s with regs := .zero } := by
  unfold initPort at h
  split_ifs at h with hk
  cases h
  exact ⟨not_not.1 hk, rfl⟩

/-- R50, R101: when the program port answers, no step has been taken, and the buffer alone is written. -/
theorem loadProgram_cases {P : ProgramBuffer} (h : loadProgram P s = .next t) :
    s.k = 0 ∧ t = { s with program := P } := by
  unfold loadProgram at h
  split_ifs at h with hk
  cases h
  exact ⟨not_not.1 hk, rfl⟩

/-- R60: when `add_label` answers, no step has been taken, the name is within the bound, and the entry
stands at the end of the table. -/
theorem addLabel_cases {name : LabelName} {address : Nat} (h : addLabel name address s = .next t) :
    s.k = 0 ∧ name.length ≤ Config.nameMax ∧
      t = { s with labels := s.labels ++ [{ name := name, addr := trunc32 address }] } := by
  unfold addLabel at h
  split_ifs at h with hk hn
  cases h
  exact ⟨not_not.1 hk, hn, rfl⟩

end Admitted

/-- R252: `init` is refused during a run. -/
theorem initPort_during_run {s : State} (hk : s.k ≠ 0) : initPort s = .refused .initDuringRun :=
  if_pos hk

/-- Settles O2: the fields of `State.reset` as they are written. -/
theorem resetStartsARun : Obligations.ResetStartsARun := ⟨rfl, rfl, rfl, rfl, rfl⟩

/-- Settles O3: `init` writes the registers alone, the other two ports do not write them. -/
theorem initKeepsTheInputs : Obligations.InitKeepsTheInputs := by
  refine fun s name address P => ⟨fun t h => ?_, initPort_during_run, fun t u v ht hu hv => ?_,
    fun t u v ht hu hv => ?_⟩
  · obtain ⟨_, rfl⟩ := initPort_cases h
    exact ⟨rfl, rfl⟩
  · obtain ⟨hk, rfl⟩ := initPort_cases ht
    obtain ⟨_, _, rfl⟩ := addLabel_cases hu
    obtain ⟨_, _, rfl⟩ := addLabel_cases hv
    exact initPort_before_run hk
  · obtain ⟨hk, rfl⟩ := initPort_cases ht
    obtain ⟨_, rfl⟩ := loadProgram_cases hu
    obtain ⟨_, rfl⟩ := loadProgram_cases hv
    exact initPort_before_run hk

/-- R60, D11: a longer name is refused. -/
theorem addLabel_name_too_long {name : LabelName} (address : Nat) {s : State} (hk : s.k = 0)
    (hn : Config.nameMax < name.length) :
    addLabel name address s = .refused .labelNameTooLong := by
  rw [addLabel, if_neg (not_not_intro hk), if_neg (Nat.not_le.2 hn)]

/-- Settles O4: an accepted entry is appended (`addLabel_next`); the two refusals are the other cases. -/
theorem addLabelAppends : Obligations.AddLabelAppends := by
  refine fun s name address => ⟨fun hk hn => ⟨_, addLabel_next address hk hn, rfl, ?_, ?_, ?_⟩,
    addLabel_name_too_long address, fun hk => if_pos hk⟩
  · exact List.length_append
  · exact List.getElem?_concat_length
  · exact fun i hi => List.getElem?_append_left hi

/-- Settles O25: the added entry stands at the old length of the table, which JUMP reads by position. -/
theorem addedLabelIsReachedByItsPosition : Obligations.AddedLabelIsReachedByItsPosition := by
  intro s t name address i h hi
  obtain ⟨_, _, rfl⟩ := addLabel_cases h
  rw [exec_jump_in_range (by simp [hi])]
  simp [hi, trunc32]

/-- Settles O5: the two branches of the port. -/
theorem programIsSuppliedBeforeTheRun : Obligations.ProgramIsSuppliedBeforeTheRun :=
  fun _ _ => ⟨fun hk => if_neg (not_not_intro hk), fun hk => if_pos hk⟩

/-- Settles O8: the two branches of the port. -/
theorem stateIsReadAtTheEnd : Obligations.StateIsReadAtTheEnd :=
  fun _ => ⟨fun hk => if_pos hk, fun hk => if_neg (Nat.ne_of_lt hk)⟩

/-- Settles O7: a call writes one indicator, with a code that is not 0, or none
(`setErrorFlags_cases`). -/
theorem setErrorFlagsChangesAtMostOne : Obligations.SetErrorFlagsChangesAtMostOne := by
  intro c r g d e e' h
  subst h
  rcases setErrorFlags_cases c r g d e with
    ⟨hne, h⟩ | ⟨hne, h⟩ | ⟨hne, h⟩ | ⟨hne, h⟩ | h <;> rw [h]
  · exact ⟨by by_cases hsame : c = e.cpu <;> simp [hsame], fun _ => hne, id, id, id⟩
  · exact ⟨by by_cases hsame : r = e.ram <;> simp [hsame], id, fun _ => hne, id, id⟩
  · exact ⟨by by_cases hsame : g = e.gpu <;> simp [hsame], id, id, fun _ => hne, id⟩
  · exact ⟨by by_cases hsame : d = e.disk <;> simp [hsame], id, id, id, fun _ => hne⟩
  · exact ⟨by simp, id, id, id, id⟩

end Sys2Proof.Proofs
end

section
/-! One step of the machine (spec/40_dispatch.md sections 1, 4 and 5). -/

namespace Sys2Proof.Proofs

open Sys2Proof.Machine Sys2Proof.Laws Sys2Proof.Safety

/-- What a word does to the state: its instruction, and the move to the next position (R108). -/
def runWord (s : State) (i : Instr) : State := advance (runInstr s i)

section Fields
variable (s : State) (i : Instr)

@[simp] theorem runWord_labels : (runWord s i).labels = s.labels := rfl
@[simp] theorem runWord_program : (runWord s i).program = s.program := rfl
@[simp] theorem runWord_k : (runWord s i).k = s.k + 1 := rfl
@[simp] theorem runWord_errCalls : (runWord s i).errCalls = s.errCalls := rfl

end Fields

section Cases
variable {s : State}

/-- R108: at a position that holds a word, the sequencer runs it. -/
theorem seqStep_eq_runWord {w : Word} (hw : progWord s.program s.k = some w) :
    seqStep s = .next (runWord s (decode w)) := by
  simp only [seqStep, hw, exec_eq_runInstr, runWord]

/-- R111: a call of the host that comes now is made. -/
theorem step_of_due {c : ErrCall} {rest : List ErrCall} (hc : s.errCalls = c :: rest)
    (hdue : c.pos ≤ s.k) : step s = .next (applyErrCall c rest s) := by
  simp [step, hc, ErrCall.due, hdue]

/-- R108: with no call of the host that comes now, the word at the position is run. -/
theorem step_eq_runWord {w : Word} (hcalls : ∀ c ∈ s.errCalls.head?, s.k < c.pos)
    (hw : progWord s.program s.k = some w) : step s = .next (runWord s (decode w)) := by
  rw [step_eq_seqStep hcalls, seqStep_eq_runWord hw]

/-- R112: past the last word and with no call of the host that comes now, no step exists. -/
theorem step_past_end (hcalls : ∀ c ∈ s.errCalls.head?, s.k < c.pos)
    (hk : s.program.length ≤ s.k) : step s = .fault .runEnded := by
  rw [step_eq_seqStep hcalls, seqStep_past_end hk]

/-- A step is a call of the host that comes now, or the run of the word at the position. -/
theorem step_call_or_word {t : State} (h : step s = .next t) :
    (∃ c rest, s.errCalls = c :: rest ∧ c.pos ≤ s.k ∧ t = applyErrCall c rest s) ∨
    (∃ w, (∀ c ∈ s.errCalls.head?, s.k < c.pos) ∧ progWord s.program s.k = some w ∧
      t = runWord s (decode w)) := by
  rcases step_cases h with hcall | ⟨hcalls, hseq⟩
  · exact .inl hcall
  · obtain ⟨w, u, hw, hu, rfl⟩ := seqStep_cases hseq
    exact .inr ⟨w, hcalls, hw, congrArg advance (eq_runInstr_of_exec hu)⟩

end Cases

/-- Settles O42: a step at a word is `runWord` (`step_eq_runWord`), which is the instruction's next state
moved on. -/
theorem stepRunsTheDecodedInstruction : Obligations.StepRunsTheDecodedInstruction := by
  intro s t w hcalls hw h
  rw [step_eq_runWord hcalls hw, eq_runInstr_of_exec h]
  rfl

/-- Settles O43: `step_of_due`, with the call written out. -/
theorem stepMakesTheHostCall : Obligations.StepMakesTheHostCall :=
  fun _ _ _ hc hdue => step_of_due hc hdue

/-- Settles O44: an ended run is past its last word and has no call to come. -/
theorem noStepAfterTheEnd : Obligations.NoStepAfterTheEnd := by
  rintro s ⟨hk, hcalls⟩
  exact step_past_end (by simp [hcalls]) hk.ge

/-- Settles O45: with a call that comes now, or a word at the position, a step exists (`step_of_due`,
`step_eq_runWord`); otherwise it does not (`step_past_end`). -/
theorem stepStopsOnlyAtTheEnd : Obligations.StepStopsOnlyAtTheEnd := by
  intro s
  constructor
  · intro hstop
    have hcalls : ∀ c ∈ s.errCalls.head?, s.k < c.pos := by
      intro c hc
      obtain ⟨rest, hrest⟩ := List.head?_eq_some_iff.1 hc
      by_contra hdue
      exact hstop _ (step_of_due hrest (Nat.not_lt.1 hdue))
    refine ⟨?_, hcalls⟩
    by_contra hk
    exact hstop _ (step_eq_runWord hcalls (List.getElem?_eq_getElem (Nat.not_le.1 hk)))
  · rintro ⟨hk, hcalls⟩ t h
    rw [step_past_end hcalls hk] at h
    cases h

/-- A 32-bit word is the table word of its own number. -/
theorem tableWord_toNat (w : Word) : tableWord 32 w.toNat = w := by
  rw [tableWord, Nat.mod_eq_of_lt w.isLt, BitVec.ofNat_toNat, BitVec.setWidth_eq]

/-- The calls that come after a position do not come at it. -/
theorem lt_pos_of_mem_head?_callsAfter {k : Nat} {calls : List ErrCall} {c : ErrCall}
    (h : c ∈ (callsAfter k calls).head?) : k < c.pos := by
  have hnot := List.head?_dropWhile_not (ErrCall.due k) calls
  rw [show (calls.dropWhile (ErrCall.due k)).head? = some c from h] at hnot
  simpa [ErrCall.due] using hnot

/-- Settles O48: the placed word stands at the position (`progWord_putWord`), and the calls left come
after it. -/
theorem withFetchWordRunsTheWord : Obligations.WithFetchWordRunsTheWord := by
  refine fun s w => ⟨_, exec_eq_runInstr _ _, ?_, rfl, rfl, rfl, rfl⟩
  have hw : progWord (s.withFetchWord 32 w.toNat).program s.k = some w := by
    rw [State.withFetchWord, tableWord_toNat, progWord_putWord]
  exact step_eq_runWord (fun _ hc => lt_pos_of_mem_head?_callsAfter hc) hw

end Sys2Proof.Proofs
end

section
/-! Runs without a host call: the words to come, folded over the state (spec/40_dispatch.md section 5,
spec/41_accumulator.md section 4, spec/44_marker_unknown.md section 3). -/

namespace Sys2Proof.Proofs

open Sys2Proof.Machine Sys2Proof.Laws Sys2Proof.Safety

/-- What a sequence of words does to the state. -/
def runWords (s : State) (is : List Instr) : State := is.foldl runWord s

section Fold
variable (s : State) (is : List Instr)

/-- What every word keeps, a sequence of words keeps. -/
theorem runWords_keeps {α : Type} {f : State → α} (hf : ∀ s i, f (runWord s i) = f s) :
    f (runWords s is) = f s := by
  induction is generalizing s with
  | nil => rfl
  | cons i is ih => exact (ih (runWord s i)).trans (hf s i)

@[simp] theorem runWords_labels : (runWords s is).labels = s.labels :=
  runWords_keeps s is runWord_labels

@[simp] theorem runWords_program : (runWords s is).program = s.program :=
  runWords_keeps s is runWord_program

@[simp] theorem runWords_errCalls : (runWords s is).errCalls = s.errCalls :=
  runWords_keeps s is runWord_errCalls

@[simp] theorem runWords_k : (runWords s is).k = s.k + is.length := by
  induction is generalizing s with
  | nil => rfl
  | cons i is ih =>
    calc (runWords (runWord s i) is).k = s.k + 1 + is.length := ih (runWord s i)
      _ = s.k + (i :: is).length := by rw [List.length_cons, Nat.add_right_comm, Nat.add_assoc]

/-- The accumulator depends on no other part of the state. -/
theorem runWords_acc : (runWords s is).regs.acc = is.foldl accAfter s.regs.acc :=
  (List.foldl_hom (fun s : State => s.regs.acc) fun _ _ => rfl).symm

/-- R194: unknown instructions emit one diagnostic each and write no register. -/
theorem runWords_unknown (h : ∀ i ∈ is, ∃ op v, i = .unknown op v) :
    (runWords s is).regs = s.regs ∧
      (runWords s is).trace =
        s.trace ++ List.replicate is.length (.diag .unknownInstruction) := by
  induction is generalizing s with
  | nil => exact ⟨rfl, (List.append_nil _).symm⟩
  | cons i is ih =>
    obtain ⟨⟨op, v, rfl⟩, htail⟩ := List.forall_mem_cons.1 h
    obtain ⟨hregs, htrace⟩ := ih (runWord s (.unknown op v)) htail
    refine ⟨hregs, htrace.trans ?_⟩
    rw [List.length_cons, List.replicate_succ, ← List.singleton_append, ← List.append_assoc]
    rfl

end Fold

/-- The words to come are the one at the position and those after it. -/
theorem upcoming_succ {s : State} {w : Word} (hw : progWord s.program s.k = some w) (n : Nat) :
    upcoming s (n + 1) = decode w :: upcoming (runWord s (decode w)) n := by
  obtain ⟨hk, rfl⟩ := List.getElem?_eq_some_iff.1 hw
  rw [upcoming, List.drop_eq_getElem_cons hk, List.take_succ_cons, List.map_cons]
  rfl

/-- As many words are to come as the buffer still holds. -/
theorem upcoming_length {s : State} {n : Nat} (h : s.k + n ≤ s.program.length) :
    (upcoming s n).length = n := by
  simp only [upcoming, List.length_map, List.length_take, List.length_drop]
  omega

/-- With no call of the host to come, a run of `n` steps runs the next `n` words. -/
theorem run_eq_runWords (n : Nat) {s : State} (hcalls : s.errCalls = [])
    (hn : s.k + n ≤ s.program.length) : core.run n s = .next (runWords s (upcoming s n)) := by
  induction n generalizing s with
  | zero => rfl
  | succ n ih =>
    have hw : progWord s.program s.k = some s.program[s.k] := List.getElem?_eq_getElem (by omega)
    have hnext : s.k + 1 + n ≤ s.program.length := by omega
    rw [run_succ_of_next (step_eq_runWord (by simp [hcalls]) hw), upcoming_succ hw]
    exact ih (s := runWord s (decode s.program[s.k])) hcalls hnext

/-- A run that has used all its words can take no further step (R112). -/
theorem run_past_end {s : State} {m : Nat} (hcalls : s.errCalls = [])
    (hk : s.k ≤ s.program.length) (hm : s.program.length - s.k < m) :
    core.run m s = .fault .runEnded := by
  obtain ⟨j, rfl⟩ : ∃ j, m = (s.program.length - s.k) + (j + 1) :=
    ⟨m - (s.program.length - s.k) - 1, by omega⟩
  have hfit : s.k + (s.program.length - s.k) ≤ s.program.length := by omega
  rw [run_add (j + 1) (run_eq_runWords _ hcalls hfit)]
  refine run_succ_of_fault (step_past_end (by simp [hcalls]) ?_)
  rw [runWords_program, runWords_k, upcoming_length hfit]
  omega

/-- Settles O53: a run of `m` steps runs `m` words while there are as many (`run_eq_runWords`), and no
more (`run_past_end`). -/
theorem runTakesExactlyNSteps : Obligations.RunTakesExactlyNSteps := by
  intro s hcalls hk
  refine ⟨?_, fun m hm => ?_, fun m hm => run_past_end hcalls hk hm⟩
  · have hfit : s.k + (s.program.length - s.k) ≤ s.program.length := by omega
    have hend : (runWords s (upcoming s (s.program.length - s.k))).k =
        (runWords s (upcoming s (s.program.length - s.k))).program.length := by
      rw [runWords_k, runWords_program, upcoming_length hfit]
      omega
    exact ⟨_, run_eq_runWords _ hcalls hfit, ⟨hend, (runWords_errCalls s _).trans hcalls⟩,
      runWords_labels s _, runWords_program s _, if_pos hend⟩
  · have hfit : s.k + m ≤ s.program.length := by omega
    exact ⟨_, run_eq_runWords m hcalls hfit, by rw [runWords_k, upcoming_length hfit]⟩

/-- The accumulator after a sequence of words is the fold in the integers, reduced modulo 2^32 (R139). -/
theorem runWords_acc_eq_accFold (s : State) (is : List Instr) :
    (runWords s is).regs.acc = BitVec.ofInt 32 (accFold s.regs.acc.toInt is) := by
  rw [runWords_acc]
  nth_rw 1 [← BitVec.ofInt_toInt (x := s.regs.acc)]
  exact List.foldl_hom (BitVec.ofInt 32) accAfter_ofInt

/-- Settles O54: the run folds the words over the state, and its accumulator is the integer fold
(`accAfter_ofInt` at each word). -/
theorem accumulatorIsTheFold : Obligations.AccumulatorIsTheFold :=
  fun n s hcalls hn => ⟨_, run_eq_runWords n hcalls hn, runWords_acc_eq_accFold s _⟩

/-- R139: without a LOAD the fold is the start value and the sum of what ADD and SUB contribute. -/
theorem accFold_of_no_load (x : Int) {is : List Instr} (h : ∀ i ∈ is, isLoad i = false) :
    accFold x is = x + (is.map accDelta).sum := by
  induction is generalizing x with
  | nil => exact (Int.add_zero x).symm
  | cons i is ih =>
    obtain ⟨hi, htail⟩ := List.forall_mem_cons.1 h
    have hone : accEffect x i = x + accDelta i := by
      cases i with
      | load => cases hi
      | add | sub => rfl
      | jump | print | labelMarker | unknown => exact (Int.add_zero x).symm
    calc accFold x (i :: is) = accFold (accEffect x i) is := rfl
      _ = x + ((i :: is).map accDelta).sum := by
        rw [ih _ htail, hone, List.map_cons, List.sum_cons, Int.add_assoc]

/-- Settles O55: LOAD starts the fold at its operand, whatever the accumulator was, and the rest adds up
(`accFold_of_no_load`). -/
theorem loadThenSumsIsTheFold : Obligations.LoadThenSumsIsTheFold := by
  intro s v0 is hcalls hn hwords hload
  have hacc : (runWords s (upcoming s (is.length + 1))).regs.acc =
      BitVec.ofInt 32 (v0.toNat + (is.map accDelta).sum) := by
    rw [runWords_acc_eq_accFold, hwords, ← accFold_of_no_load _ hload]
    rfl
  refine ⟨_, run_eq_runWords _ hcalls hn, hacc, fun hfits => ?_⟩
  rw [hacc, toInt_ofInt32_of_fits hfits]

/-- Settles O58: every word to come is an unknown instruction, and those only emit
(`runWords_unknown`). -/
theorem unknownWordsOnlyEmitDiagnostics : Obligations.UnknownWordsOnlyEmitDiagnostics := by
  intro n s hcalls hn hwords
  have hunknown : ∀ i ∈ upcoming s n, ∃ op v, i = .unknown op v := by
    intro i hi
    obtain ⟨w, hw, rfl⟩ := List.mem_map.1 hi
    exact ⟨_, _, instrOf_unknown _ (hwords w hw)⟩
  obtain ⟨hregs, htrace⟩ := runWords_unknown s _ hunknown
  rw [upcoming_length hn] at htrace
  exact ⟨_, run_eq_runWords n hcalls hn, hregs, htrace⟩

end Sys2Proof.Proofs
end

section
/-! What every step and every run keeps (spec/10_state.md section 10, spec/20_memory.md section 5,
spec/40_dispatch.md section 2). -/

namespace Sys2Proof.Proofs

open Sys2Proof.Machine Sys2Proof.Laws Sys2Proof.Safety

/-- No step writes the inputs of a run (R54, R61). -/
theorem step_keeps_inputs {s t : State} (h : step s = .next t) :
    t.labels = s.labels ∧ t.program = s.program := by
  rcases step_call_or_word h with ⟨c, rest, _, _, rfl⟩ | ⟨w, _, _, rfl⟩
  · exact ⟨rfl, rfl⟩
  · exact ⟨rfl, rfl⟩

/-- Settles O51: what every step keeps, every run keeps (`run_keeps`). -/
theorem inputsAreConstant : Obligations.InputsAreConstant := by
  intro n s t h
  refine run_keeps (P := fun u => u.labels = s.labels ∧ u.program = s.program) ?_ ⟨rfl, rfl⟩ h
  rintro u v ⟨hlabels, hprogram⟩ hstep
  obtain ⟨hlabels', hprogram'⟩ := step_keeps_inputs hstep
  exact ⟨hlabels'.trans hlabels, hprogram'.trans hprogram⟩

/-- The position of `t` is not below that of `s`, and the records since then are at most as many as the
positions passed (R105). -/
def Continues (s t : State) : Prop :=
  s.k ≤ t.k ∧ ∃ rs, t.trace = s.trace ++ rs ∧ rs.length ≤ t.k - s.k

theorem Continues.refl (s : State) : Continues s s :=
  ⟨le_refl _, [], (List.append_nil _).symm, Nat.zero_le _⟩

theorem Continues.trans {s t u : State} (hst : Continues s t) (htu : Continues t u) :
    Continues s u := by
  obtain ⟨hk, rs, htrace, hrs⟩ := hst
  obtain ⟨hk', rs', htrace', hrs'⟩ := htu
  refine ⟨hk.trans hk', rs ++ rs', by rw [htrace', htrace, List.append_assoc], ?_⟩
  rw [List.length_append]
  omega

/-- A host call emits nothing; a word emits at most one record and is one position (R105, R111). -/
theorem step_continues {s t : State} (h : step s = .next t) : Continues s t := by
  rcases step_call_or_word h with ⟨c, rest, _, _, rfl⟩ | ⟨w, _, _, rfl⟩
  · exact Continues.refl s
  · have hone := recordsOf_length_le_one s.regs.acc s.regs.gpr0 s.labels (decode w)
    exact ⟨Nat.le_succ s.k, _, rfl, hone.trans (Nat.le_sub_of_add_le' (le_refl (s.k + 1)))⟩

/-- Settles O52: each step continues the state before it, and so does a run (`run_keeps`). -/
theorem traceOnlyGrows : Obligations.TraceOnlyGrows :=
  fun _ s _ h => run_keeps (P := Continues s)
    (fun _ _ hu hstep => hu.trans (step_continues hstep)) (Continues.refl s) h

/-- R26: `pc` holds what it held before, or an address of the table. -/
theorem pcAfter_cases (pc : Word) (T : LabelTable) (i : Instr) :
    pcAfter pc T i = pc ∨ ∃ e ∈ T, pcAfter pc T i = e.addr := by
  cases i with
  | jump v =>
    cases h : T[v.toNat]? with
    | none => exact .inl (by simp [pcAfter, h])
    | some e => exact .inr ⟨e, List.mem_of_getElem? h, by simp [pcAfter, h]⟩
  | load | add | sub | print | labelMarker | unknown => exact .inl rfl

/-- A record says what the registers and the table hold (R103): the signed accumulator, the signed
`gpr[0]`, or the name of an entry. -/
def ReadFrom (acc gpr0 : Word) (T : LabelTable) : TraceRecord → Prop
  | .value .acc v => v = acc.toInt
  | .value .ax v => v = gpr0.toInt
  | .label name => ∃ e ∈ T, e.name = name
  | .diag _ => True

/-- Every record of an instruction says what the instruction has read. -/
theorem readFrom_of_mem_recordsOf {acc gpr0 : Word} {T : LabelTable} {i : Instr} {r : TraceRecord}
    (h : r ∈ recordsOf acc gpr0 T i) : ReadFrom acc gpr0 T r := by
  cases i with
  | load | add | sub => simp [recordsOf] at h
  | jump v =>
    rw [recordsOf] at h
    split_ifs at h
    · cases h
    · rw [List.mem_singleton.1 h]; trivial
  | print v =>
    rw [recordsOf] at h
    split_ifs at h <;> rw [List.mem_singleton.1 h]
    · rfl
    · rfl
    · trivial
  | labelMarker a =>
    obtain ⟨e, he, rfl⟩ := Option.map_eq_some_iff.1 (Option.mem_toList.1 h)
    exact ⟨e, (labelFindAddr_some he).1, rfl⟩
  | unknown op v => rw [List.mem_singleton.1 h]; trivial

/-- A call of `set_error_flags` writes nothing that the invariant speaks of (R111). -/
theorem inv_errUpdate {s : State} (c r g d : Word) (h : Inv s) : Inv (errUpdate c r g d s) :=
  { h with }

/-- Which calls are still to come is nothing that the invariant speaks of. -/
theorem inv_withErrCalls {s : State} (calls : List ErrCall) (h : Inv s) :
    Inv { s with errCalls := calls } :=
  { h with }

/-- A word that stands in the buffer keeps the invariant: `pc` by `pcAfter_cases`, the new record by
`readFrom_of_mem_recordsOf`, and the rest is not written. -/
theorem inv_runWord {s : State} (i : Instr) (h : Inv s) (hk : s.k < s.program.length) :
    Inv (runWord s i) :=
  { gpr0 := h.gpr0, gpr1 := h.gpr1, gpr2 := h.gpr2, flags := h.flags, ip := h.ip, seg := h.seg
    names := h.names
    pc := by
      rcases pcAfter_cases s.regs.pc s.labels i with hpc | haddr
      · exact h.pc.imp hpc.trans fun ⟨e, he, hs⟩ => ⟨e, he, hpc.trans hs⟩
      · exact .inr haddr
    position := hk
    records := by
      have hone := recordsOf_length_le_one s.regs.acc s.regs.gpr0 s.labels i
      exact List.length_append.trans_le (Nat.add_le_add h.records hone)
    axValues := by
      intro v hv
      rcases List.mem_append.1 hv with hold | hnew
      · exact h.axValues v hold
      · have hax : v = s.regs.gpr0.toInt := readFrom_of_mem_recordsOf hnew
        rw [hax, h.gpr0]
        rfl
    accValues := by
      intro v hv
      rcases List.mem_append.1 hv with hold | hnew
      · exact h.accValues v hold
      · have hacc : v = s.regs.acc.toInt := readFrom_of_mem_recordsOf hnew
        rw [hacc]
        exact ⟨BitVec.le_toInt _, BitVec.toInt_lt⟩
    labelRecords := by
      intro name hname
      rcases List.mem_append.1 hname with hold | hnew
      · exact h.labelRecords name hold
      · exact readFrom_of_mem_recordsOf hnew }

/-- Settles O49: a step is a call of the host (`inv_errUpdate`) or a word (`inv_runWord`). -/
theorem stepKeepsTheInvariant : Obligations.StepKeepsTheInvariant := by
  intro s t hinv h
  rcases step_call_or_word h with ⟨c, rest, _, _, rfl⟩ | ⟨w, _, hw, rfl⟩
  · exact inv_errUpdate _ _ _ _ (inv_withErrCalls rest hinv)
  · obtain ⟨hk, _⟩ := List.getElem?_eq_some_iff.1 hw
    exact inv_runWord _ hinv hk

/-- Settles O50: at reset every register is 0, and the trace and the table are empty. -/
theorem resetMeetsTheInvariant : Obligations.ResetMeetsTheInvariant :=
  { gpr0 := rfl, gpr1 := rfl, gpr2 := rfl, flags := rfl, ip := rfl, seg := rfl
    pc := .inl rfl
    position := le_refl 0
    records := le_refl 0
    axValues := fun _ h => (List.not_mem_nil h).elim
    accValues := fun _ h => (List.not_mem_nil h).elim
    labelRecords := fun _ h => (List.not_mem_nil h).elim
    names := fun _ h => (List.not_mem_nil h).elim }

/-- `init` writes 0 to every register the invariant speaks of (R250). -/
theorem inv_withRegsZero {s : State} (h : Inv s) : Inv { s with regs := .zero } :=
  { h with
    gpr0 := rfl, gpr1 := rfl, gpr2 := rfl, flags := rfl, ip := rfl, seg := rfl, pc := .inl rfl }

/-- A new entry within the bound on names takes no entry away (R60). -/
theorem inv_withLabel {s : State} {e : LabelEntry} (h : Inv s)
    (hname : e.name.length ≤ Config.nameMax) : Inv { s with labels := s.labels ++ [e] } :=
  { h with
    pc := h.pc.imp id fun ⟨e', he', hpc⟩ => ⟨e', List.mem_append_left _ he', hpc⟩
    labelRecords := fun name hr =>
      let ⟨e', he', hn⟩ := h.labelRecords name hr
      ⟨e', List.mem_append_left _ he', hn⟩
    names := List.forall_mem_append.2 ⟨h.names, List.forall_mem_singleton.2 hname⟩ }

/-- Before the first step, position 0 is within any buffer (R33). -/
theorem inv_withProgram {s : State} (P : ProgramBuffer) (h : Inv s) (hk : s.k = 0) :
    Inv { s with program := P } :=
  { h with position := hk.trans_le (Nat.zero_le _) }

/-- Settles O9: one lemma for what each port writes. -/
theorem portsKeepTheInvariant : Obligations.PortsKeepTheInvariant := by
  rintro s t name address P c r g d hinv (h | h | h | rfl)
  · obtain ⟨_, rfl⟩ := initPort_cases h
    exact inv_withRegsZero hinv
  · obtain ⟨_, hname, rfl⟩ := addLabel_cases h
    exact inv_withLabel hinv hname
  · obtain ⟨hk, rfl⟩ := loadProgram_cases h
    exact inv_withProgram P hinv hk
  · exact inv_errUpdate c r g d hinv

end Sys2Proof.Proofs
end

section
/-! What no run reads: the error indicators, and six of the register fields (spec/10_state.md section 1,
spec/60_exceptions.md section 3). -/

namespace Sys2Proof.Proofs

open Sys2Proof.Machine Sys2Proof.Laws Sys2Proof.Safety

/-- Without the host's calls, a step either disappears or stays a step (R111, R223). -/
theorem eraseErr_step {s t : State} (h : step s = .next t) :
    eraseErr t = eraseErr s ∨ step (eraseErr s) = .next (eraseErr t) := by
  rcases step_call_or_word h with ⟨c, rest, _, _, rfl⟩ | ⟨w, _, hw, rfl⟩
  · exact .inl rfl
  · exact .inr (step_eq_runWord (s := eraseErr s) (by simp [eraseErr]) hw)

/-- Settles O56: by induction on the steps, leaving out those that are calls (`eraseErr_step`). -/
theorem errorCallsChangeNothingElse : Obligations.ErrorCallsChangeNothingElse := by
  intro m
  induction m with
  | zero =>
    intro s t h
    cases h
    exact ⟨0, le_refl 0, rfl⟩
  | succ m ih =>
    intro s t h
    obtain ⟨u, hstep, hrun⟩ := run_succ_cases h
    obtain ⟨m', hm', hrun'⟩ := ih u t hrun
    rcases eraseErr_step hstep with hcall | hword
    · exact ⟨m', Nat.le_succ_of_le hm', hcall ▸ hrun'⟩
    · exact ⟨m' + 1, Nat.succ_le_succ hm', (run_succ_of_next hword).trans hrun'⟩

/-- With other contents in the unread fields a step is the same step, and only JUMP writes one of them,
`pc` (R20). -/
theorem withUnread_step {s t : State} (g1 g2 pc flags ip seg : Word) (h : step s = .next t) :
    ∃ pc', step (withUnread s g1 g2 pc flags ip seg) =
      .next (withUnread t g1 g2 pc' flags ip seg) := by
  rcases step_call_or_word h with ⟨c, rest, hc, hdue, rfl⟩ | ⟨w, hcalls, hw, rfl⟩
  · exact ⟨pc, step_of_due (s := withUnread s g1 g2 pc flags ip seg) hc hdue⟩
  · exact ⟨pcAfter pc s.labels (decode w),
      step_eq_runWord (s := withUnread s g1 g2 pc flags ip seg) hcalls hw⟩

/-- Settles O57: by induction on the steps, with any `pc` at each (`withUnread_step`). -/
theorem unreadFieldsNeverMatter : Obligations.UnreadFieldsNeverMatter := by
  intro m
  induction m with
  | zero =>
    intro s t g1 g2 pc flags ip seg h
    cases h
    exact ⟨pc, rfl⟩
  | succ m ih =>
    intro s t g1 g2 pc flags ip seg h
    obtain ⟨u, hstep, hrun⟩ := run_succ_cases h
    obtain ⟨pc₁, hstep'⟩ := withUnread_step g1 g2 pc flags ip seg hstep
    obtain ⟨pc₂, hrun'⟩ := ih u t g1 g2 pc₁ flags ip seg hrun
    exact ⟨pc₂, (run_succ_of_next hstep').trans hrun'⟩

end Sys2Proof.Proofs
end
